-- ==== Sys2Proof/Word.lean ====
section
/-! DEFINITION. The value types of the block: CMD and RES words, bytes, the 24-bit wire word and colour
count, pulse durations, and the two value types the units exchange (Color and Pulse). -/

namespace Sys2Proof

/-- A CMD, RES or STATUS item: 32 bits (R35, R48). -/
abbrev Word := BitVec 32

/-- A colour channel or HSV operand: 8 bits (R6). -/
abbrev Byte := BitVec 8

/-- A duration in nanoseconds: `DUR_W` = 16 bits (R8, R14, D10). -/
abbrev Dur := BitVec 16

/-- The colour count of ENCODE_MANY and the register COLLECT: `COUNT_W` = 24 bits (R8, R18, R50, D7). -/
abbrev Count := BitVec 24

/-- The 24-bit wire word `g ++ r ++ b` (R77). -/
abbrev Wire := BitVec 24

/-- A colour: plain data with no identity (R6, R14). -/
structure Color where
  r : Byte
  g : Byte
  b : Byte
  deriving DecidableEq, Repr

/-- The timing of one transmitted bit: high duration, then low duration (R14). -/
structure Pulse where
  high : Dur
  low : Dur
  deriving DecidableEq, Repr

end Sys2Proof
end

