-- ==== Sys2Proof/Syntax.lean ====
section
/-! DEFINITION. The instructions: the five results of the spec's decode function (R63), which are the
mnemonics of spec/opcode_table.json. The table's seven RESERVED rows cut one opcode range into masks and
are one instruction (log 8). -/

namespace Sys2Proof

/-- What one CMD word can be taken as (R63). -/
inductive Instr where
  /-- `HSV2RGB h, s, v`, format T, OPC 0x01 (R55, R65). -/
  | hsv2rgb (h s v : Byte)
  /-- `ENCODE r, g, b`, format T, OPC 0x02 (R56, R82). -/
  | encode (c : Color)
  /-- `ENCODE_MANY n`, format N, OPC 0x03 (R50, R86). -/
  | encodeMany (n : Count)
  /-- A colour data word, format D, taken while COLLECT is not 0 (R53, R87). Bits 31:24 are ignored by the
  block and are no operand (log 9). -/
  | data (c : Color)
  /-- A reserved operation word, OPC 0x00 or 0x04 to 0xFF (R59, R100): the whole word. -/
  | reserved (w : Word)
  deriving DecidableEq, Repr

/-- R51: whether an instruction is one that is taken while an ENCODE_MANY is open. -/
def Instr.isData : Instr → Bool
  | .hsv2rgb _ _ _ => false
  | .encode _ => false
  | .encodeMany _ => false
  | .data _ => true
  | .reserved _ => false

end Sys2Proof
end

