-- ==== Sys2Proof/WellFormed.lean ====
section
/-! DEFINITION. Which terms of `Instr` stand for a word of the block. Every bit pattern of every operand is
legal (R54, R59) and the operand types carry the widths, so the one check on a term is that a `reserved`
word has a reserved opcode; the check against COLLECT says in which decoding mode a term can be read. -/

namespace Sys2Proof

/-- R52, R59: OPC 0x00 and 0x04 to 0xFF are reserved. -/
def reservedOpc (opc : Byte) : Bool := opc == 0 || decide (4 ≤ opc)

/-- A term is well-formed if some word is read as it. -/
def Instr.wf : Instr → Bool
  | .hsv2rgb _ _ _ => true
  | .encode _ => true
  | .encodeMany _ => true
  | .data _ => true
  | .reserved w => reservedOpc (w.extractLsb' 24 8)

/-- R51: with COLLECT = 0 only operation words are read, otherwise only data words. -/
def Instr.fits (collect : Count) (i : Instr) : Bool := i.isData == decide (collect ≠ 0)

end Sys2Proof
end

