-- ==== Sys2Proof/Decode.lean ====
section
/-! DEFINITION. The encoding (30_encoding.md): bit fields, the decode function of R63, the opcode table of
R52 as data, the encoder, and the reading of a sequence of CMD words. -/

namespace Sys2Proof

/-! ### Fields (R49, R50, R53, R54) -/

/-- `OPC = w[31:24]` (R49). -/
def opcOf (w : Word) : Byte := w.extractLsb' 24 8

/-- `A = w[23:16]` (R49), also `R` of a data word (R53). -/
def fieldA (w : Word) : Byte := w.extractLsb' 16 8

/-- `B = w[15:8]` (R49), also `G` of a data word (R53). -/
def fieldB (w : Word) : Byte := w.extractLsb' 8 8

/-- `C = w[7:0]` (R49), also `B` of a data word (R53). -/
def fieldC (w : Word) : Byte := w.extractLsb' 0 8

/-- `N = w[23:0]` (R50). -/
def fieldN (w : Word) : Count := w.extractLsb' 0 24

/-- The colour that bits 23:0 of a word carry, in the order r, g, b (R53, R54, R56). -/
def colorOf (w : Word) : Color := ⟨fieldA w, fieldB w, fieldC w⟩

/-! ### Decoding (R51, R63) -/

/-- An operation word, taken with COLLECT = 0 (R52). -/
def decodeOp (w : Word) : Instr :=
  if opcOf w = 0x01 then .hsv2rgb (fieldA w) (fieldB w) (fieldC w)
  else if opcOf w = 0x02 then .encode (colorOf w)
  else if opcOf w = 0x03 then .encodeMany (fieldN w)
  else .reserved w

/-- The decode function of R63: total, with the COLLECT test before the opcode test (R103). -/
def decode (collect : Count) (w : Word) : Instr :=
  if collect ≠ 0 then .data (colorOf w) else decodeOp w

/-- COLLECT after an instruction is carried out with COLLECT = `collect` (R60, R86, R87). -/
def collectOf (collect : Count) : Instr → Count
  | .data _ => collect - 1
  | .encodeMany n => n
  | .hsv2rgb _ _ _ => collect
  | .encode _ => collect
  | .reserved _ => collect

/-- COLLECT after the word `w` is taken with COLLECT = `collect`. -/
def nextCollect (collect : Count) (w : Word) : Count := collectOf collect (decode collect w)

/-- What a sequence of CMD words is taken as, from COLLECT = `collect` (R51, R60, R119). -/
def decodeStream (collect : Count) : List Word → List Instr
  | [] => []
  | w :: ws => decode collect w :: decodeStream (nextCollect collect w) ws

/-- COLLECT after a sequence of CMD words has been taken from COLLECT = `collect`. -/
def collectAfter (collect : Count) : List Word → Count
  | [] => collect
  | w :: ws => collectAfter (nextCollect collect w) ws

/-! ### The opcode table (R52) -/

/-- A row of the table for operation words: a word belongs to it if its masked bits are the match. -/
structure OpRow where
  mnemonic : String
  matchBits : Word
  maskBits : Word
  deriving DecidableEq, Repr

/-- Whether a word belongs to a row. -/
def OpRow.has (row : OpRow) (w : Word) : Bool := (w &&& row.maskBits) == row.matchBits

/-- The rows of the three operations (R52) and the reserved space, cut into masks as
spec/opcode_table.json cuts it. -/
def opTable : List OpRow :=
  [⟨"HSV2RGB", 0x01000000, 0xFF000000⟩, ⟨"ENCODE", 0x02000000, 0xFF000000⟩,
   ⟨"ENCODE_MANY", 0x03000000, 0xFF000000⟩, ⟨"RESERVED", 0x00000000, 0xFF000000⟩,
   ⟨"RESERVED", 0x04000000, 0xFC000000⟩, ⟨"RESERVED", 0x08000000, 0xF8000000⟩,
   ⟨"RESERVED", 0x10000000, 0xF0000000⟩, ⟨"RESERVED", 0x20000000, 0xE0000000⟩,
   ⟨"RESERVED", 0x40000000, 0xC0000000⟩, ⟨"RESERVED", 0x80000000, 0x80000000⟩]

/-- The mnemonic of an instruction, as the table has it. -/
def Instr.mnemonic : Instr → String
  | .hsv2rgb _ _ _ => "HSV2RGB"
  | .encode _ => "ENCODE"
  | .encodeMany _ => "ENCODE_MANY"
  | .data _ => "DATA"
  | .reserved _ => "RESERVED"

/-! ### Encoding -/

/-- Format T (R49): `OPC ++ A ++ B ++ C`, the more significant part first (R11). -/
def formatT (opc a b c : Byte) : Word := opc ++ a ++ b ++ c

/-- Format N (R50): `OPC ++ N`. -/
def formatN (opc : Byte) (n : Count) : Word := opc ++ n

/-- The CMD word of an instruction. A data word is written with bits 31:24 zero, as software writes it
(R53, R59). -/
def encode : Instr → Word
  | .hsv2rgb h s v => formatT 0x01 h s v
  | .encode c => formatT 0x02 c.r c.g c.b
  | .encodeMany n => formatN 0x03 n
  | .data c => formatT 0x00 c.r c.g c.b
  | .reserved w => w

/-! ### The host's reading of a table word -/

/-- The CMD word of an `nbits`-bit table word: the bits above `nbits` are 0, and a word has 32 bits (R48). -/
def tableWord (nbits w : Nat) : Word := BitVec.ofNat 32 (w % 2 ^ nbits)

/-- What the decoder reads from a table word as an operation word, that is with COLLECT = 0 as after reset
(R112). A data word has no opcode and is selected by COLLECT alone (R52), so no bits of a table word select
it (log 7). -/
def decodeTableWord (nbits w : Nat) : Option Instr :=
  if nbits ≤ 32 then some (decode 0 (tableWord nbits w)) else none

end Sys2Proof
end

