-- ==== Sys2Proof/Config.lean ====
section
/-! DEFINITION. The configuration of the block (R8): what is fixed before it operates and never changes
(R27, R116). The values the spec leaves OPEN are constants with no body, so a theorem holds for every
well-formed choice of them. -/

namespace Sys2Proof

/-- The parameters that R8 leaves OPEN. The two default values are R8's own; the block never reads either
of these two fields (they belong to the consumer's duty, R47). -/
structure Params where
  t0h : Dur
  t0l : Dur
  t1h : Dur
  t1l : Dur
  tResetMin : Nat := 280000
  cmdDepth : Nat
  resDepth : Nat
  pulseDepth : Nat
  chunkCap : Nat := 48
  deriving DecidableEq, Repr

/-- R9, condition 1: every duration is positive. Its upper bound `2^DUR_W` is carried by the type `Dur`. -/
def Params.durationsPositive (p : Params) : Bool :=
  decide (0 < p.t0h) && decide (0 < p.t0l) && decide (0 < p.t1h) && decide (0 < p.t1l)

/-- R9, condition 2: a 0 bit and a 1 bit have different timing pairs. -/
def Params.pairsDiffer (p : Params) : Bool :=
  decide ((p.t0h, p.t0l) ≠ (p.t1h, p.t1l))

/-- R9, condition 3: the minimum latch gap is positive. -/
def Params.gapPositive (p : Params) : Bool := decide (0 < p.tResetMin)

/-- R9, condition 4: each channel holds at least one item. -/
def Params.depthsPositive (p : Params) : Bool :=
  decide (1 ≤ p.cmdDepth) && decide (1 ≤ p.resDepth) && decide (1 ≤ p.pulseDepth)

/-- R9: a configuration is well-formed only when all four conditions hold. -/
def Params.wf (p : Params) : Bool :=
  p.durationsPositive && p.pairsDiffer && p.gapPositive && p.depthsPositive

/-- Some well-formed parameters. They show only that the type `WfParams` has a member, which Lean asks for
before it admits `openParams`; no theorem can use these numbers, since `openParams` has no body. -/
def Params.someWf : Params :=
  { t0h := 1, t0l := 1, t1h := 2, t1l := 1, cmdDepth := 1, resDepth := 1, pulseDepth := 1 }

/-- Parameters together with their well-formedness: what a block can be built from (R9, D26). -/
structure WfParams where
  params : Params := Params.someWf
  ok : params.wf = true := by decide
  deriving Inhabited

/-- R9, D26: an ill-formed configuration is refused, it has no block. -/
def Params.checked (p : Params) : Option WfParams :=
  if h : p.wf = true then some ⟨p, h⟩ else none

/-- The OPEN parameters of the block of this model: well-formed, and otherwise nothing is known of them
(log 3). -/
opaque openParams : WfParams

/-- A whole configuration: the OPEN parameters and the HSV to RGB function of the Color Space Unit
(R8, R75). -/
structure Config extends Params where
  hsvImpl : Byte → Byte → Byte → Color

/-- R68: what every permitted `HSV_IMPL` satisfies. That it is total and pure (R70) is carried by its type. -/
def Config.hsvPermitted (c : Config) : Prop := c.hsvImpl 0 255 255 = ⟨255, 0, 0⟩

/-- `P0`, the pulse of a 0 bit (R27). -/
def Config.p0 (c : Config) : Pulse := ⟨c.t0h, c.t0l⟩

/-- `P1`, the pulse of a 1 bit (R27). -/
def Config.p1 (c : Config) : Pulse := ⟨c.t1h, c.t1l⟩

end Sys2Proof
end

