-- ==== Sys2Proof/Machine/State.lean ====
section
/-! DEFINITION. The architectural state (R17: exactly these seven components), the reasons a step can stop,
the exception causes, and the state after reset. -/

namespace Sys2Proof.Machine

/-- The state of the block (R17). The configuration is not part of it (R27), and STATUS is computed from it
(R22). -/
structure State where
  /-- COLLECT: how many colour data words the open ENCODE_MANY still expects (R18). -/
  collect : Count
  /-- EMIT: how many pulses of the current colour are not yet on PULSE; legal values 0 to 24 (R19). -/
  emit : BitVec 5
  /-- SHIFT: the wire word of the colour being emitted; never shifted in place (R20, conflict C6). -/
  shift : Wire
  /-- ILL: the sticky fault flag (R21). -/
  ill : Bool
  /-- CMD: words from the host, oldest first (R24). -/
  cmd : List Word
  /-- RES: result words to the host, oldest first (R25). -/
  res : List Word
  /-- PULSE: pulses to the consumer, oldest first (R26). -/
  pulse : List Pulse
  deriving DecidableEq, Repr

/-- The causes of an exception (R99). Raising one is not a stop: the block goes on (R100, R104), so a cause
is no `Fault` (log 20). -/
inductive ExceptionCause where
  /-- A reserved operation word was taken with COLLECT = 0. -/
  | illegalOp
  deriving DecidableEq, Repr

/-- The code that names a cause (R99). No register holds it. -/
def ExceptionCause.code : ExceptionCause → Nat
  | .illegalOp => 1

/-- Why a step stops the machine. -/
inductive Fault where
  /-- Raised by an EMIT step whose EMIT is 25 to 31, values the spec says never occur (R19, R29), so that
  `SHIFT[EMIT - 1]` is no bit. Safe: the machine stops where the spec gives no effect, and no reachable state
  raises it (log 5). -/
  | emitOutOfRange
  deriving DecidableEq, Repr

/-- Why a step refuses. -/
inductive Refusal where
  /-- Raised by an arm of `exec` whose instruction has no meaning yet, with its mnemonic. Safe: the machine
  stops. No arm of this model raises it. -/
  | notModelled (mnemonic : String)
  deriving DecidableEq, Repr

/-- The state after a reset (R111) in which SHIFT came out as `sh`: R111 leaves SHIFT unspecified, so a
reset the host asserts may give any `sh`. -/
def State.resetWith (sh : Wire) : State :=
  { collect := 0, emit := 0, shift := sh, ill := false, cmd := [], res := [], pulse := [] }

/-- The machine right after reset (R111). DESIGN CHOICE: SHIFT is 0, for which the spec states no value
(log 1). -/
def State.reset : State := State.resetWith 0

end Sys2Proof.Machine
end

