-- ==== Sys2Proof/Machine/Flags.lean ====
section
/-! DEFINITION. The flags and the STATUS word (R22, R28): computed from the registers, never stored, but for
ILL. -/

namespace Sys2Proof.Machine

/-- BUSY: an operation's output is not yet complete (R22). -/
def busy (s : State) : Bool := decide (s.collect ≠ 0 ∨ s.emit ≠ 0)

/-- DATA_PEND: the next CMD word will be taken as a colour data word (R22). -/
def dataPend (s : State) : Bool := decide (s.collect ≠ 0)

/-- STATUS (R22): BUSY in bit 0, ILL in bit 1, DATA_PEND in bit 2; bits 31:3 read 0. -/
def status (s : State) : Word :=
  (0 : BitVec 29) ++ BitVec.ofBool (dataPend s) ++ BitVec.ofBool s.ill ++ BitVec.ofBool (busy s)

end Sys2Proof.Machine
end

