-- ==== Sys2Proof/Machine/Operands.lean ====
section
/-! DEFINITION. Operand and result forms: the RES word, the wire word, and the packed form of a Pulse.
The operand fields of a CMD word are in Decode. -/

namespace Sys2Proof.Machine

/-- The RES word of a colour: `0x00 ++ r ++ g ++ b` (R57). -/
def resWord (c : Color) : Word := (0x00 : Byte) ++ c.r ++ c.g ++ c.b

/-- `wire_word(Color(r, g, b)) = g ++ r ++ b` (R77). -/
def wireWord (c : Color) : Wire := c.g ++ c.r ++ c.b

/-- The colour whose wire word is `x`: g in bits 23:16, r in bits 15:8, b in bits 7:0 (R77). -/
def colorOfWire (x : Wire) : Color :=
  ⟨x.extractLsb' 8 8, x.extractLsb' 16 8, x.extractLsb' 0 8⟩

/-- The packed form of a Pulse where one is needed: `high ++ low` (R58). The block never uses it. -/
def packPulse (p : Pulse) : BitVec 32 := p.high ++ p.low

end Sys2Proof.Machine
end

