-- ==== Sys2Proof/Machine/Ops.lean ====
section
/-! DEFINITION. The named operations of R12 (push, pop, raise), the frame of an ACCEPT step (R89), and
taking an exception (R100). -/

namespace Sys2Proof.Machine

/-- What a step or a meaning answers. -/
abbrev Result := Host.Outcome State Fault Refusal

/-! ### Channels (R12, R24 to R26) -/

/-- Whether a channel of this capacity has room. Every capacity is at least 1 (R9), so an empty channel has
room whatever its capacity (log 14). -/
def hasRoom {α : Type} (depth : Nat) (ch : List α) : Bool := ch.isEmpty || decide (ch.length < depth)

/-- `push(CH, v)`: appends the newest item; none on a full channel, where the step is not enabled (R12). -/
def chanPush {α : Type} (depth : Nat) (ch : List α) (v : α) : Option (List α) :=
  if hasRoom depth ch then some (ch ++ [v]) else none

/-- `pop(CH)`: removes and returns the oldest item; none on an empty channel, where the step is not enabled
(R12). -/
def chanPop {α : Type} : List α → Option (α × List α)
  | [] => none
  | v :: rest => some (v, rest)

/-! ### Waiting -/

/-- A step that is not enabled waits: it takes no step and all its state survives (R12, R110). The model
answers the same state (log 2). -/
def wait (s : State) : Result := .next s

/-! ### The ACCEPT step's frame (R89) -/

/-- Takes the oldest word of CMD and goes on with `k` after the pop. It requires EMIT = 0, a word on CMD, and
COLLECT ≠ 0 for a data word, COLLECT = 0 for an operation word; otherwise it waits (R12, R89, log 13). -/
def takeWord (asData : Bool) (s : State) (k : State → Result) : Result :=
  if s.emit = 0 ∧ dataPend s = asData then
    match chanPop s.cmd with
    | some (_, rest) => k { s with cmd := rest }
    | none => wait s
  else wait s

/-- `SHIFT <- wire_word(c); EMIT <- 24` (R82, R87). -/
def loadColor (c : Color) (s : State) : State := { s with shift := wireWord c, emit := 24 }

/-! ### Taking an exception (R100, R104) and returning from one (R105) -/

/-- `raise cause(w)`: sets the sticky flag and discards `w`. No state is saved, no mode changes, nothing is
vectored (R104), so there is nothing to return from: the next CMD word is decoded as usual (R105). -/
def raise (cause : ExceptionCause) (_w : Word) (s : State) : State :=
  match cause with
  | .illegalOp => { s with ill := true }

/-! ### Fetching -/

/-- The instruction the block takes next: with EMIT = 0, what the oldest word of CMD decodes to under the
present COLLECT (R51, R89). -/
def fetch (s : State) : Option Instr :=
  if s.emit = 0 then s.cmd.head?.map (decode s.collect) else none

end Sys2Proof.Machine
end

