-- ==== Sys2Proof/Machine/ColorSpace.lean ====
section
/-! DEFINITION. The Color Space Unit (40_color_space.md): the reference HSV to RGB algorithm (R66), the
configuration of this block, and HSV2RGB (R65). -/

namespace Sys2Proof.Machine

/-- `region = h / 43`, in 0..5 (R66, R71). -/
def hsvRegion (h : Byte) : Nat := h.toNat / 43

/-- `remainder = (h - region * 43) * 6`, in 0..252 (R66, R71). -/
def hsvRemainder (h : Byte) : Nat := (h.toNat - hsvRegion h * 43) * 6

/-- `p = (v * (255 - s)) >> 8` (R66). -/
def hsvP (s v : Byte) : Nat := v.toNat * (255 - s.toNat) / 256

/-- `q = (v * (255 - ((s * remainder) >> 8))) >> 8` (R66). -/
def hsvQ (h s v : Byte) : Nat := v.toNat * (255 - s.toNat * hsvRemainder h / 256) / 256

/-- `t = (v * (255 - ((s * (255 - remainder)) >> 8))) >> 8` (R66). -/
def hsvT (h s v : Byte) : Nat := v.toNat * (255 - s.toNat * (255 - hsvRemainder h) / 256) / 256

/-- The reference algorithm (R66), PRESUMED: the spec takes it from general knowledge (D14, log 4). The
quantities are exact natural numbers, as R71 shows that no product overflows and no subtraction is negative;
they are narrowed to bytes at the end. -/
def hsvReference (h s v : Byte) : Color :=
  let p : Byte := BitVec.ofNat 8 (hsvP s v)
  let q : Byte := BitVec.ofNat 8 (hsvQ h s v)
  let t : Byte := BitVec.ofNat 8 (hsvT h s v)
  if s = 0 then ⟨v, v, v⟩
  else match hsvRegion h with
    | 0 => ⟨v, t, p⟩
    | 1 => ⟨q, v, p⟩
    | 2 => ⟨p, v, t⟩
    | 3 => ⟨p, q, v⟩
    | 4 => ⟨t, p, v⟩
    | _ => ⟨v, p, q⟩

/-- The configuration of this block (R8): the OPEN parameters, and the reference algorithm, the value R8
gives for `HSV_IMPL` (log 4). -/
def hw : Config := { toParams := openParams.params, hsvImpl := hsvReference }

/-- HSV2RGB on a block with configuration `c` (R65): needs room on RES, otherwise the word stays at the head
of CMD and nothing changes. -/
def hsv2rgbOn (c : Config) (h sat v : Byte) (s : State) : Result :=
  takeWord false s fun t =>
    match chanPush c.resDepth t.res (resWord (c.hsvImpl h sat v)) with
    | some res' => .next { t with res := res' }
    | none => wait s

/-- `HSV2RGB h, s, v` (R65). -/
def execHsv2rgb (h sat v : Byte) (s : State) : Result := hsv2rgbOn hw h sat v s

end Sys2Proof.Machine
end

