-- ==== Sys2Proof/Machine/ColorCodec.lean ====
section
/-! DEFINITION. The Color Codec Unit (41_color_codec.md): the pure codec functions (R77 to R81), ENCODE,
ENCODE_MANY and the colour data word (R82, R86, R87), and the EMIT step (R90). -/

namespace Sys2Proof.Machine

/-! ### The codec functions -/

/-- `pulse_of` (R78). -/
def pulseOf (c : Config) (bit : Bool) : Pulse := if bit then c.p1 else c.p0

/-- `encode` of a colour (R78): pulse `k` carries bit `23 - k` of the wire word. -/
def encodePulses (c : Config) (x : Color) : List Pulse :=
  (List.range 24).map fun k => pulseOf c ((wireWord x).getLsbD (23 - k))

/-- `encode_many` (R79): colour 0 first. -/
def encodeManyPulses (c : Config) (xs : List Color) : List Pulse := xs.flatMap (encodePulses c)

/-- The wire word of a list of 24 pulses (R81): bit `23 - k` is 1 exactly when pulse `k` is `P1`. -/
def wireOfPulses (c : Config) (ps : List Pulse) : Wire :=
  ps.foldl (fun acc p => (acc <<< 1) ||| (if p = c.p1 then 1 else 0)) 0

/-- `decode24` (R81). It is no operation of the block. -/
def decode24 (c : Config) (ps : List Pulse) : Color := colorOfWire (wireOfPulses c ps)

/-- The pulses of the current colour that are not yet on PULSE (R92):
`pulse_of(SHIFT[i]) for i = EMIT-1 down to 0`. -/
def pendingPulses (c : Config) (s : State) : List Pulse :=
  (List.range s.emit.toNat).reverse.map fun i => pulseOf c (s.shift.getLsbD i)

/-! ### The operations -/

/-- `ENCODE r, g, b` (R82). -/
def execEncode (x : Color) (s : State) : Result :=
  takeWord false s fun t => .next (loadColor x t)

/-- `ENCODE_MANY n` (R86): COLLECT <- n; with n = 0 it is the NOP of R62. -/
def execEncodeMany (n : Count) (s : State) : Result :=
  takeWord false s fun t => .next { t with collect := n }

/-- A colour data word (R87). COLLECT is not 0 here, so it does not wrap (R18). -/
def execData (x : Color) (s : State) : Result :=
  takeWord true s fun t => .next { loadColor x t with collect := t.collect - 1 }

/-! ### The EMIT step -/

/-- The EMIT step on a block with configuration `c` (R90): pushes the pulse of `SHIFT[EMIT - 1]`; SHIFT is
not changed. It waits when EMIT = 0 or PULSE is full, and faults on the values of EMIT that never occur
(R19, log 5). -/
def emitOn (c : Config) (s : State) : Result :=
  if s.emit = 0 then wait s
  else if 24 < s.emit then .fault .emitOutOfRange
  else match chanPush c.pulseDepth s.pulse (pulseOf c (s.shift.getLsbD (s.emit.toNat - 1))) with
    | some pulse' => .next { s with pulse := pulse', emit := s.emit - 1 }
    | none => wait s

/-- The EMIT step of this block (R90). -/
def emitStep (s : State) : Result := emitOn hw s

end Sys2Proof.Machine
end

