-- ==== Sys2Proof/Machine/Exceptions.lean ====
section
/-! DEFINITION. The reserved operation words (60_exceptions.md). -/

namespace Sys2Proof.Machine

/-- A reserved word (R59, R100): it is taken from CMD, raises IllegalOp, and has no other effect. -/
def execReserved (w : Word) (s : State) : Result :=
  takeWord false s fun t => .next (raise .illegalOp w t)

end Sys2Proof.Machine
end

