-- ==== Sys2Proof/Machine/Dispatch.lean ====
section
/-! DEFINITION. The meaning of each instruction, one arm per constructor. -/

namespace Sys2Proof.Machine

def exec (i : Instr) (s : State) : Host.Outcome State Fault Refusal :=
  match i with
  | .hsv2rgb h sat v => Sys2Proof.Machine.execHsv2rgb h sat v s
  | .encode c => Sys2Proof.Machine.execEncode c s
  | .encodeMany n => Sys2Proof.Machine.execEncodeMany n s
  | .data c => Sys2Proof.Machine.execData c s
  | .reserved w => Sys2Proof.Machine.execReserved w s

end Sys2Proof.Machine
end

