-- ==== Sys2Proof/Machine/Step.lean ====
section
/-! DEFINITION. The block's step (R89 to R91), and placing a word where it takes its next one. -/

namespace Sys2Proof.Machine

/-- One step of the block: with EMIT = 0 an ACCEPT step on the oldest word of CMD, otherwise an EMIT step;
at most one of the two is ever enabled (R91), and with neither enabled the block waits (R110). -/
def step (s : State) : Host.Outcome State Fault Refusal :=
  match fetch s with
  | some i => exec i s
  | none => emitStep s

/-- `s` with a table word as the oldest word of CMD, in a state where the block takes an operation word
next: EMIT = 0 (R89) and COLLECT = 0 (R51). It stands for the host's push (log 7). -/
def State.withFetchWord (s : State) (nbits w : Nat) : State :=
  { s with emit := 0, collect := 0, cmd := tableWord nbits w :: s.cmd.tail }

end Sys2Proof.Machine
end

