-- ==== Sys2Proof/Machine/Assembler.lean ====
section
/-! DEFINITION. The textual syntax for CMD word sequences (R61, R62): the lines of a program, their words,
and the reading of the text. The block has no part in it. Characters are read one by one, from lists. -/

namespace Sys2Proof.Machine

/-! ### Lines and their words -/

/-- A line of a program, its operands still of any size (R61, R62). -/
inductive AsmLine where
  | hsv2rgb (h s v : Nat)
  | encode (r g b : Nat)
  | encodeMany (n : Nat)
  | color (r g b : Nat)
  | word (x : Nat)
  | nop
  | frame (cs : List (Nat × Nat × Nat))
  deriving DecidableEq, Repr

/-- An operand must fit its field (R61). -/
def fitsIn (bits n : Nat) : Option (BitVec bits) :=
  if n < 2 ^ bits then some (BitVec.ofNat bits n) else none

/-- The colour of three operands that each fit a byte. -/
def fitColor (r g b : Nat) : Option Color :=
  match fitsIn 8 r, fitsIn 8 g, fitsIn 8 b with
  | some r', some g', some b' => some ⟨r', g', b'⟩
  | _, _, _ => none

/-- The pseudo-instructions expand (R62): NOP to `ENCODE_MANY 0`, FRAME to a count and its colours. -/
def AsmLine.expand : AsmLine → List AsmLine
  | .hsv2rgb h s v => [.hsv2rgb h s v]
  | .encode r g b => [.encode r g b]
  | .encodeMany n => [.encodeMany n]
  | .color r g b => [.color r g b]
  | .word x => [.word x]
  | .nop => [.encodeMany 0]
  | .frame cs => .encodeMany cs.length :: cs.map fun c => .color c.1 c.2.1 c.2.2

/-- The word of one expanded line, with `collect` data words still owed (R61): an operand that does not fit
is refused, and so is a `.color` that no open count covers. -/
def AsmLine.toWord (collect : Count) : AsmLine → Option Word
  | .hsv2rgb h s v =>
    match fitColor h s v with
    | some x => some (Sys2Proof.encode (.hsv2rgb x.r x.g x.b))
    | none => none
  | .encode r g b => (fitColor r g b).map fun x => Sys2Proof.encode (.encode x)
  | .encodeMany n => (fitsIn 24 n).map fun n' => Sys2Proof.encode (.encodeMany n')
  | .color r g b => if collect = 0 then none else (fitColor r g b).map fun x => Sys2Proof.encode (.data x)
  | .word x => fitsIn 32 x
  | .nop => none
  | .frame _ => none

/-- The words of expanded lines. The open count is followed as the block would follow it: every word counts,
an operation word inside an open count too, since it is taken as data (R51, R119; log 10). -/
def assembleFrom (collect : Count) : List AsmLine → Option (List Word)
  | [] => some []
  | l :: ls =>
    match l.toWord collect with
    | some w => (assembleFrom (nextCollect collect w) ls).map fun ws => w :: ws
    | none => none

/-- The CMD words of a program (R61, R62); none where the assembler refuses it. -/
def assemble (ls : List AsmLine) : Option (List Word) := assembleFrom 0 (ls.flatMap AsmLine.expand)

/-! ### Reading the text (log 10) -/

/-- A token of a line. -/
inductive Tok where
  | name (cs : List Char)
  | comma
  | lpar
  | rpar
  deriving DecidableEq, Repr

/-- A character that a mnemonic, a directive or a number may hold. -/
def isNameChar (c : Char) : Bool := c.isAlphanum || c == '.' || c == '_'

/-- The name read so far, as a token if there is one. -/
def flushName (acc : List Char) : List Tok := if acc = [] then [] else [.name acc]

/-- The tokens of a line; a comment starts with a semicolon (R61). `acc` is the name read so far. -/
def lexLine (acc : List Char) : List Char → Option (List Tok)
  | [] => some (flushName acc)
  | c :: cs =>
    if c = ';' then some (flushName acc)
    else if c = ' ' || c = '\t' || c = '\r' then (lexLine [] cs).map fun ts => flushName acc ++ ts
    else if c = ',' then (lexLine [] cs).map fun ts => flushName acc ++ .comma :: ts
    else if c = '(' then (lexLine [] cs).map fun ts => flushName acc ++ .lpar :: ts
    else if c = ')' then (lexLine [] cs).map fun ts => flushName acc ++ .rpar :: ts
    else if isNameChar c then lexLine (acc ++ [c]) cs
    else none

/-- The value of a digit in base 16, either case. -/
def hexDigit (c : Char) : Option Nat :=
  if '0' ≤ c ∧ c ≤ '9' then some (c.toNat - '0'.toNat)
  else if 'a' ≤ c ∧ c ≤ 'f' then some (c.toNat - 'a'.toNat + 10)
  else if 'A' ≤ c ∧ c ≤ 'F' then some (c.toNat - 'A'.toNat + 10)
  else none

/-- Digits in a base, the most significant first; `acc` is the value read so far. -/
def digitsFrom (base acc : Nat) : List Char → Option Nat
  | [] => some acc
  | c :: cs =>
    match hexDigit c with
    | some d => if d < base then digitsFrom base (acc * base + d) cs else none
    | none => none

/-- A number: decimal, or hexadecimal written `0x..` (R61). -/
def parseNumber : List Char → Option Nat
  | [] => none
  | ['0', 'x'] => none
  | '0' :: 'x' :: ds => digitsFrom 16 0 ds
  | ds => digitsFrom 10 0 ds

/-- Three numbers. -/
def parseThree (a b c : List Char) : Option (Nat × Nat × Nat) :=
  match parseNumber a, parseNumber b, parseNumber c with
  | some x, some y, some z => some (x, y, z)
  | _, _, _ => none

/-- The parenthesised colours of a FRAME, separated by commas (R62). -/
def parseColors : List Tok → Option (List (Nat × Nat × Nat))
  | [.lpar, .name a, .comma, .name b, .comma, .name c, .rpar] => (parseThree a b c).map fun t => [t]
  | .lpar :: .name a :: .comma :: .name b :: .comma :: .name c :: .rpar :: .comma :: rest =>
    match parseThree a b c, parseColors rest with
    | some t, some ts => some (t :: ts)
    | _, _ => none
  | _ => none

/-- A line from its mnemonic and the tokens after it (R61, R62). -/
def parseBody (op : List Char) (args : List Tok) : Option AsmLine :=
  if op = ['N', 'O', 'P'] then (if args = [] then some .nop else none)
  else if op = ['F', 'R', 'A', 'M', 'E'] then
    (if args = [] then some (.frame []) else (parseColors args).map .frame)
  else match args with
    | [.name a] =>
      match parseNumber a with
      | some n =>
        if op = ['E', 'N', 'C', 'O', 'D', 'E', '_', 'M', 'A', 'N', 'Y'] then some (.encodeMany n)
        else if op = ['.', 'w', 'o', 'r', 'd'] then some (.word n)
        else none
      | none => none
    | [.name a, .comma, .name b, .comma, .name c] =>
      match parseThree a b c with
      | some (x, y, z) =>
        if op = ['H', 'S', 'V', '2', 'R', 'G', 'B'] then some (.hsv2rgb x y z)
        else if op = ['E', 'N', 'C', 'O', 'D', 'E'] then some (.encode x y z)
        else if op = ['.', 'c', 'o', 'l', 'o', 'r'] then some (.color x y z)
        else none
      | none => none
    | _ => none

/-- The line a row of text holds: none if it is no line of the syntax, an empty list if it is blank or only
a comment. -/
def parseLine (cs : List Char) : Option (List AsmLine) :=
  match lexLine [] cs with
  | some [] => some []
  | some (.name op :: args) => (parseBody op args).map fun l => [l]
  | _ => none

/-- Text cut at its line ends; `acc` is the line read so far. -/
def splitLines (acc : List Char) : List Char → List (List Char)
  | [] => [acc]
  | c :: cs => if c = '\n' then acc :: splitLines [] cs else splitLines (acc ++ [c]) cs

/-- The lines of a program text. -/
def parseLines : List (List Char) → Option (List AsmLine)
  | [] => some []
  | r :: rs =>
    match parseLine r, parseLines rs with
    | some ls, some ls' => some (ls ++ ls')
    | _, _ => none

/-- The CMD words of a program text; none where it is not in the syntax or the assembler refuses it. -/
def assembleText (text : List Char) : Option (List Word) :=
  match parseLines (splitLines [] text) with
  | some ls => assemble ls
  | none => none

end Sys2Proof.Machine
end

