-- ==== Sys2Proof/Machine/Frames.lean ====
section
/-! DEFINITION. Frames (R85): which colours belong to one frame. PULSE carries no frame boundary (R26); the
frames are those of the instructions the block has taken. -/

namespace Sys2Proof.Machine

/-- The colour an instruction gives to the stream (R92): by the Encode and Data arms only. -/
def instrColors : Instr → List Color
  | .hsv2rgb _ _ _ => []
  | .encode c => [c]
  | .encodeMany _ => []
  | .data c => [c]
  | .reserved _ => []

/-- The colour of a data word. -/
def dataColors : Instr → List Color
  | .hsv2rgb _ _ _ => []
  | .encode _ => []
  | .encodeMany _ => []
  | .data c => [c]
  | .reserved _ => []

/-- How many colours the frame of an instruction has (R85, R86): only an ENCODE_MANY whose count is not 0 opens
one (log 19). -/
def instrFrameSize : Instr → Option Nat
  | .hsv2rgb _ _ _ => none
  | .encode _ => none
  | .encodeMany n => if n = 0 then none else some n.toNat
  | .data _ => none
  | .reserved _ => none

/-- A frame: how many colours it has in all, and those of them taken so far. -/
structure Frame where
  size : Nat
  colors : List Color
  deriving DecidableEq, Repr

/-- All colours of the frame have been taken. -/
def Frame.whole (f : Frame) : Bool := decide (f.colors.length = f.size)

/-- The pulses of the frame's colours taken so far (R85). -/
def Frame.pulses (c : Config) (f : Frame) : List Pulse := encodeManyPulses c f.colors

/-- What the instructions settle about frames (R85): an ENCODE_MANY is one frame; a run of ENCODEs is cut
into frames by the host alone. -/
inductive FrameGroup where
  | many (f : Frame)
  | each (cs : List Color)
  deriving DecidableEq, Repr

/-- The colours of a group. -/
def FrameGroup.colors : FrameGroup → List Color
  | .many f => f.colors
  | .each cs => cs

/-- The colours of the data words that a sequence begins with. -/
def leadingData : List Instr → List Color
  | .data c :: is => c :: leadingData is
  | .hsv2rgb _ _ _ :: _ => []
  | .encode _ :: _ => []
  | .encodeMany _ :: _ => []
  | .reserved _ :: _ => []
  | [] => []

/-- A colour of an ENCODE word put before the groups after it: it belongs to the run of ENCODEs it begins. -/
def consEach (c : Color) : List FrameGroup → List FrameGroup
  | .each cs :: gs => .each (c :: cs) :: gs
  | .many f :: gs => .each [c] :: .many f :: gs
  | [] => [.each [c]]

/-- The groups of a sequence of instructions, in order. The data words of an ENCODE_MANY follow it with
nothing in between (R60). DEDUCED: a count of 0 has no pulse and makes no frame; neither it nor an HSV2RGB or
reserved word ends a run of ENCODEs, since none of them gives a pulse (log 19). -/
def frameGroups : List Instr → List FrameGroup
  | [] => []
  | .encodeMany n :: is =>
    if n = 0 then frameGroups is else .many ⟨n.toNat, leadingData is⟩ :: frameGroups is
  | .encode c :: is => consEach c (frameGroups is)
  | .data _ :: is => frameGroups is
  | .hsv2rgb _ _ _ :: is => frameGroups is
  | .reserved _ :: is => frameGroups is

/-- The frame of an ENCODE_MANY group. -/
def FrameGroup.frame? : FrameGroup → Option Frame
  | .many f => some f
  | .each _ => none

/-- The frames of the ENCODE_MANYs, in order (R85). -/
def manyFrames (is : List Instr) : List Frame := (frameGroups is).filterMap FrameGroup.frame?

/-- Whether a list of frames is one that these groups allow (R85): each ENCODE_MANY is one frame, and a run of
ENCODEs is cut into frames of at least one colour each, as the host chooses. Only the last frame of all may
still be short, of a run to which the host means to add. -/
def framesAllowed : List FrameGroup → List Frame → Bool
  | gs, [] => decide (gs = [])
  | [], _ :: _ => false
  | .many f :: gs, g :: fs => decide (f = g) && framesAllowed gs fs
  | .each cs :: gs, g :: fs =>
    decide (g.colors ≠ []) && g.colors.isPrefixOf cs &&
      (if cs.drop g.colors.length = [] then
        (g.whole || (decide (gs = []) && decide (g.colors.length < g.size))) && framesAllowed gs fs
      else g.whole && framesAllowed (.each (cs.drop g.colors.length) :: gs) fs)

end Sys2Proof.Machine
end

