-- ==== Sys2Proof/Machine/Wire.lean ====
section
/-! DEFINITION. The consumer's duties (R47, R115, R120, R122), as a check of what a consumer puts on the
line. They lie outside the block: no step of the block reads or enforces any of this, and no statement about
the block assumes it. -/

namespace Sys2Proof.Machine

/-- A stretch of the line: how long it is held high or low, in nanoseconds. -/
inductive Segment where
  | high (ns : Nat)
  | low (ns : Nat)
  deriving DecidableEq, Repr

/-- One transmitted pulse and the idle low time the consumer adds after it. -/
structure SentPulse where
  pulse : Pulse
  idle : Nat
  deriving DecidableEq, Repr

/-- What the consumer put on the line: the low time before the first pulse, then the frames. -/
structure Transmission where
  lead : Nat
  frames : List (List SentPulse)
  deriving DecidableEq, Repr

/-- The line for one pulse (R47 (a)): high for `high` ns, then low for `low` ns, then the idle low time. -/
def SentPulse.line (x : SentPulse) : List Segment :=
  [.high x.pulse.high.toNat, .low x.pulse.low.toNat, .low x.idle]

/-- The whole line of a transmission. -/
def Transmission.line (t : Transmission) : List Segment :=
  .low t.lead :: t.frames.flatten.flatMap SentPulse.line

/-- The pulses of a transmitted frame. -/
def sentPulses (x : List SentPulse) : List Pulse := x.map SentPulse.pulse

/-- R47 (b): the pulses are those popped, in the order popped. -/
def Transmission.inOrder (t : Transmission) (sent : List Pulse) : Bool :=
  decide (sentPulses t.frames.flatten = sent)

/-- The transmission is cut where the frames of the block are (R85): frame by frame its pulses are theirs, and
only the last frame begun may still be short. -/
def framesCut (c : Config) : List (List SentPulse) → List Frame → Bool
  | [], _ => true
  | _ :: _, [] => false
  | [x], f :: _ => decide (x ≠ []) && (sentPulses x).isPrefixOf (f.pulses c)
  | x :: y :: xs, f :: fs => decide (sentPulses x = f.pulses c) && f.whole && framesCut c (y :: xs) fs

/-- R47 (c), R120: the idle time after the last pulse of a frame that is complete is at least
`T_RESET_MIN`. -/
def gapKept (c : Config) (x : List SentPulse) (f : Frame) : Bool :=
  if f.whole && decide (sentPulses x = f.pulses c) then
    match x.getLast? with
    | some z => decide (c.tResetMin ≤ z.idle)
    | none => true
  else true

/-- R47 (c), R120, for every frame. -/
def Transmission.gapsKept (c : Config) (frames : List Frame) (t : Transmission) : Bool :=
  (t.frames.zip frames).all fun xf => gapKept c xf.1 xf.2

/-- R47 (d), R122: inside a frame every idle time stays below the LEDs' latch threshold, for which the spec
gives no value (log 15). -/
def Transmission.framesWhole (threshold : Nat) (t : Transmission) : Bool :=
  t.frames.all fun f => f.dropLast.all fun x => decide (x.idle < threshold)

/-- R115 (4): the line is held low for at least `T_RESET_MIN` before the first pulse of the first frame. -/
def Transmission.leadKept (p : Params) (t : Transmission) : Bool := decide (p.tResetMin ≤ t.lead)

/-- All the duties of the consumer for the pulses it popped, judged against `frames`, the frames of the block
(R85). DESIGN CHOICE: the spec does not say how the consumer learns where a frame ends, as PULSE has no
marker; the check takes the frames as given and models no way of telling the consumer (log 21). -/
def Transmission.dutiesMet (c : Config) (threshold : Nat) (frames : List Frame) (sent : List Pulse)
    (t : Transmission) : Bool :=
  t.inOrder sent && framesCut c t.frames frames && t.gapsKept c frames && t.framesWhole threshold &&
    t.leadKept c.toParams

/-- R47 (e), R84: the pulses cut into chunks of `n`, as a consumer with `CHUNK_CAP = n` takes them. The first
argument bounds the recursion and is at least the number of pulses. -/
def chunksOf (fuel n : Nat) (ps : List Pulse) : List (List Pulse) :=
  match fuel, ps with
  | _, [] => []
  | 0, _ => []
  | k + 1, ps => ps.take n :: chunksOf k n (ps.drop n)

/-- The chunks in which this block's consumer takes the pulses (R47 (e), `CHUNK_CAP`). DESIGN CHOICE: R8 and
R9 give `CHUNK_CAP` no lower bound, and a chunk of no pulse takes none; with `CHUNK_CAP = 0` the consumer takes
the pulses one by one (log 22). -/
def chunksTaken (p : Params) (ps : List Pulse) : List (List Pulse) :=
  chunksOf ps.length (max 1 p.chunkCap) ps

end Sys2Proof.Machine
end

