-- ==== Sys2Proof/Machine/System.lean ====
section
/-! DEFINITION. The block with its two partners (R10, R46, R47): every step an agent can take, and the
history that the laws of R92, R93 and R125 speak of. A list of moves is one interleaving, so a statement
about every list of moves holds for every order in which the agents act (R91). There is one host and one
consumer by construction (R40, log 18). -/

namespace Sys2Proof.Machine

/-! ### When a block step is enabled -/

/-- Whether RES has the room an instruction needs: only HSV2RGB needs any (R89). -/
def resReady (s : State) : Instr → Bool
  | .hsv2rgb _ _ _ => hasRoom hw.resDepth s.res
  | .encode _ => true
  | .encodeMany _ => true
  | .data _ => true
  | .reserved _ => true

/-- The ACCEPT step is enabled (R89). -/
def acceptEnabled (s : State) : Bool :=
  match fetch s with
  | some i => resReady s i
  | none => false

/-- The EMIT step is enabled (R90). -/
def emitEnabled (s : State) : Bool := decide (s.emit ≠ 0) && hasRoom hw.pulseDepth s.pulse

/-- Some block step is enabled (R91). -/
def blockEnabled (s : State) : Bool := acceptEnabled s || emitEnabled s

/-! ### The agents' moves -/

/-- One step of one agent. No other interaction exists (R45 to R47). -/
inductive Move where
  /-- The host writes a word on CMD (R46). -/
  | push (w : Word)
  /-- The host takes the oldest result from RES (R46). -/
  | popRes
  /-- The host reads STATUS (R23). -/
  | readStatus
  /-- The host asserts reset (R46, R111); `sh` is what SHIFT, which R111 leaves unspecified, comes out as. -/
  | reset (sh : Wire)
  /-- The block takes its enabled step (R89, R90). -/
  | block
  /-- The consumer takes the oldest pulse from PULSE (R47). -/
  | popPulse
  deriving DecidableEq, Repr

/-- The block and what has passed between the agents since the last reset. The history is no state of the
block (R17): no step reads it (log 6, log 11). -/
structure Sys where
  block : State
  /-- The words the host has written on CMD. -/
  pushed : List Word
  /-- The words the block has taken from CMD. -/
  taken : List Word
  /-- `acc` of R92: the colours taken by the Encode and Data arms of R89. -/
  acc : List Color
  /-- The result words the host has read. -/
  read : List Word
  /-- `sent` of R92: the pulses the consumer has popped. -/
  sent : List Pulse
  /-- The STATUS words the host has polled. -/
  polls : List Word
  deriving DecidableEq, Repr

/-- The system just after a reset in which SHIFT came out as `sh`. -/
def Sys.start (sh : Wire) : Sys :=
  { block := State.resetWith sh, pushed := [], taken := [], acc := [], read := [], sent := [], polls := [] }

/-- The result word an instruction gives to the host (R31, R65). -/
def instrResults (c : Config) : Instr → List Word
  | .hsv2rgb h s v => [resWord (c.hsvImpl h s v)]
  | .encode _ => []
  | .encodeMany _ => []
  | .data _ => []
  | .reserved _ => []

/-- Whether an instruction raises IllegalOp (R99). -/
def instrIsReserved : Instr → Bool
  | .hsv2rgb _ _ _ => false
  | .encode _ => false
  | .encodeMany _ => false
  | .data _ => false
  | .reserved _ => true

/-- The word that the enabled block step takes from CMD: an ACCEPT step takes exactly one (R89), an EMIT step
none. -/
def takenBy (s : State) : List Word := if s.emit = 0 then s.cmd.take 1 else []

/-- The colours that the enabled block step takes (R92). -/
def colorsBy (s : State) : List Color :=
  match fetch s with
  | some i => instrColors i
  | none => []

/-- One move of one agent; none where it is not enabled and so has no meaning (R12, R46). -/
def Sys.move (m : Move) (y : Sys) : Option Sys :=
  match m with
  | .push w =>
    match chanPush hw.cmdDepth y.block.cmd w with
    | some q => some { y with block := { y.block with cmd := q }, pushed := y.pushed ++ [w] }
    | none => none
  | .popRes =>
    match chanPop y.block.res with
    | some (w, q) => some { y with block := { y.block with res := q }, read := y.read ++ [w] }
    | none => none
  | .readStatus => some { y with polls := y.polls ++ [status y.block] }
  | .reset sh => some (Sys.start sh)
  | .block =>
    if blockEnabled y.block then
      match step y.block with
      | .next s => some { y with block := s, taken := y.taken ++ takenBy y.block,
                                 acc := y.acc ++ colorsBy y.block }
      | .fault _ => none
      | .refused _ => none
    else none
  | .popPulse =>
    match chanPop y.block.pulse with
    | some (p, q) => some { y with block := { y.block with pulse := q }, sent := y.sent ++ [p] }
    | none => none

/-- A run: the moves in order, none if one of them is not enabled when its turn comes. -/
def Sys.run : List Move → Sys → Option Sys
  | [], y => some y
  | m :: ms, y =>
    match y.move m with
    | some z => z.run ms
    | none => none

/-! ### Named sequences of moves -/

/-- The block pushes one pulse and the consumer takes it, `n` times. -/
def drainMoves : Nat → List Move
  | 0 => []
  | n + 1 => .block :: .popPulse :: drainMoves n

/-- The host writes a colour's word, the block takes it, and its 24 pulses are handed over (R93). -/
def colorMoves (w : Word) : List Move := .push w :: .block :: drainMoves 24

/-- The host writes `ENCODE_MANY n` and then the data words of `n` colours, each drained (R93). -/
def encodeManyMoves (xs : List Color) : List Move :=
  .push (encode (.encodeMany (BitVec.ofNat 24 xs.length))) :: .block ::
    xs.flatMap fun x => colorMoves (encode (.data x))

/-- The host writes an ENCODE word for each colour, each drained (R93). -/
def encodeEachMoves (xs : List Color) : List Move := xs.flatMap fun x => colorMoves (encode (.encode x))

/-! ### The consumer's duties in a system -/

/-- Whether `frames` are frames of the words the block has taken: those of its ENCODE_MANYs, and for its
ENCODEs some cut the host may choose (R85, log 21). -/
def Sys.framesOf (y : Sys) (frames : List Frame) : Bool :=
  framesAllowed (frameGroups (decodeStream 0 y.taken)) frames

/-- Whether what the consumer put on the line meets its duties for the pulses it popped from this block
(R47, R115, R120, R122). -/
def Sys.dutiesMet (y : Sys) (threshold : Nat) (frames : List Frame) (t : Transmission) : Bool :=
  y.framesOf frames && t.dutiesMet hw threshold frames y.sent

end Sys2Proof.Machine
end

