-- ==== Sys2Proof/Safety.lean ====
section
/-! DEFINITION. The terms claims are stated in: the invariants of R29, the stream law (R92), final and
stuck states (R125, R126), endless runs and fairness (R124), the observation of a run, the lines an assembler
refuses (R61), and the relation that hides SHIFT (R114). -/

namespace Sys2Proof.Machine

/-! ### Invariants -/

/-- The invariants of R29 (a), (c) and (d), and the capacities of R24 to R26. -/
structure State.Inv (s : State) : Prop where
  /-- R29 (a). -/
  emit_le : s.emit.toNat ≤ 24
  /-- R29 (c). -/
  collect_le : s.collect.toNat ≤ 2 ^ 24 - 1
  /-- R29 (d). -/
  pulses : ∀ p ∈ s.pulse, p = hw.p0 ∨ p = hw.p1
  /-- R24. -/
  cmd_le : s.cmd.length ≤ hw.cmdDepth
  /-- R25. -/
  res_le : s.res.length ≤ hw.resDepth
  /-- R26. -/
  pulse_le : s.pulse.length ≤ hw.pulseDepth

/-- The stream law of R92: what the consumer has popped, what is on PULSE and what is still to come are
together `encode_many` of the colours taken. -/
def Sys.StreamLaw (y : Sys) : Prop :=
  y.sent ++ y.block.pulse ++ pendingPulses hw y.block = encodeManyPulses hw y.acc

/-- What the words taken since reset determine, whatever the interleaving (R31, R39, R91). -/
structure Sys.WordLaw (y : Sys) : Prop where
  /-- Words are taken in the order written; none is dropped or repeated (R24, R39 (a)). -/
  order : y.pushed = y.taken ++ y.block.cmd
  /-- The open count (R18, R60). -/
  collect : y.block.collect = collectAfter 0 y.taken
  /-- The colours, in the order taken (R39 (d)). -/
  colors : y.acc = (decodeStream 0 y.taken).flatMap instrColors
  /-- The results, in the order of their words (R39 (b)). -/
  results : y.read ++ y.block.res = (decodeStream 0 y.taken).flatMap (instrResults hw)
  /-- ILL says whether a reserved word was taken (R21, R99). -/
  ill : y.block.ill = (decodeStream 0 y.taken).any instrIsReserved

/-- R29 (b): while pulses are to come, SHIFT was written since reset, by the last colour taken. -/
def Sys.ShiftWritten (y : Sys) : Prop :=
  y.block.emit ≠ 0 → ∃ x, y.acc.getLast? = some x ∧ y.block.shift = wireWord x

/-- What every reachable system satisfies. -/
structure Sys.Inv (y : Sys) : Prop where
  block : y.block.Inv
  stream : y.StreamLaw
  words : y.WordLaw
  shift : y.ShiftWritten

/-- A system that some interleaving reaches from a reset in which SHIFT came out as anything. -/
def Sys.Reachable (y : Sys) : Prop := ∃ sh ms, Sys.run ms (Sys.start sh) = some y

/-! ### Where the block waits (R126) -/

/-- The block has nothing left to do: the conditions of R125 on the block. -/
def State.Done (s : State) : Prop := s.cmd = [] ∧ s.collect = 0 ∧ s.emit = 0 ∧ s.pulse = []

/-- Nothing taken is unfinished and no word waits; PULSE may still hold items (R118). -/
def State.Idle (s : State) : Prop := s.emit = 0 ∧ s.collect = 0 ∧ s.cmd = []

/-- The block waits for a data word: the condition of R126 (a) on the block. -/
def State.AwaitsData (s : State) : Prop := s.emit = 0 ∧ s.collect ≠ 0 ∧ s.cmd = []

/-- The block waits for room on RES: the condition of R126 (b) on the block. -/
def State.AwaitsRes (s : State) : Prop :=
  s.emit = 0 ∧ (∃ h sat v, fetch s = some (.hsv2rgb h sat v)) ∧ hw.resDepth ≤ s.res.length

/-- The block waits for room on PULSE: the condition of R126 (c) on the block. -/
def State.AwaitsPulse (s : State) : Prop := s.emit ≠ 0 ∧ hw.pulseDepth ≤ s.pulse.length

/-! ### The end of a run (R125, R126) -/

/-- What the partners of the block mean to do: the words the host writes after reset, all of them, and
whether the host goes on reading RES and the consumer goes on popping PULSE. -/
structure Partners where
  program : List Word
  hostReads : Bool
  consumerPops : Bool
  deriving DecidableEq, Repr

/-- The host has no further word to write (R125, R126). -/
def Sys.AllWritten (p : Partners) (y : Sys) : Prop := y.pushed = p.program

/-- R125: a final state. -/
def Sys.Final (p : Partners) (y : Sys) : Prop := y.AllWritten p ∧ y.block.Done

/-- R126 (a): data words are still owed, and the host writes no more. -/
def Sys.StuckOnData (p : Partners) (y : Sys) : Prop := y.AllWritten p ∧ y.block.AwaitsData

/-- R126 (b): an HSV2RGB word heads CMD, RES is full, and the host no longer reads it. -/
def Sys.StuckOnRes (p : Partners) (y : Sys) : Prop :=
  y.AllWritten p ∧ y.block.AwaitsRes ∧ p.hostReads = false

/-- R126 (c): pulses are to come, PULSE is full, and the consumer no longer pops it. -/
def Sys.StuckOnPulse (p : Partners) (y : Sys) : Prop :=
  y.AllWritten p ∧ y.block.AwaitsPulse ∧ p.consumerPops = false

/-- A stuck state (R126). It is no final state. -/
def Sys.Stuck (p : Partners) (y : Sys) : Prop := y.StuckOnData p ∨ y.StuckOnRes p ∨ y.StuckOnPulse p

/-- The block is idle but the consumer leaves pulses on PULSE. R125 excludes it from the final states and
R126 does not list it among the stuck ones; it is named here by itself (log 23). -/
def Sys.Unpopped (p : Partners) (y : Sys) : Prop :=
  y.AllWritten p ∧ y.block.Idle ∧ y.block.pulse ≠ [] ∧ p.consumerPops = false

/-- The block waits as in R126 (b) or (c), and CMD is full, so that the host never writes its other words. R126
names only states in which it has none left; this one is named here by itself (log 23). -/
def Sys.Unwritten (p : Partners) (y : Sys) : Prop :=
  ¬ y.AllWritten p ∧ hw.cmdDepth ≤ y.block.cmd.length ∧
    ((y.block.AwaitsRes ∧ p.hostReads = false) ∨ (y.block.AwaitsPulse ∧ p.consumerPops = false))

/-! ### Endless runs and weak fairness (R124) -/

/-- What the agents go on doing: the block's steps, the host's writing and reading, the consumer's popping. -/
inductive Task where
  | block
  | write
  | read
  | pop
  deriving DecidableEq, Repr

/-- The move an agent means to make next for a task; none where it has none left. -/
def Partners.next (p : Partners) (y : Sys) : Task → Option Move
  | .block => some .block
  | .write => p.program[y.pushed.length]?.map Move.push
  | .read => if p.hostReads then some .popRes else none
  | .pop => if p.consumerPops then some .popPulse else none

/-- The next move of a task exists and is enabled. -/
def Sys.Ready (p : Partners) (k : Task) (y : Sys) : Prop := ∃ m, p.next y k = some m ∧ (y.move m).isSome = true

/-- Nothing more happens: no task has an enabled move. -/
def Sys.Halted (p : Partners) (y : Sys) : Prop := ∀ k, ¬ y.Ready p k

/-- The moves these partners make: the host writes its program in order and does not reset, and neither
partner takes items once it has stopped doing so. -/
def Partners.allows (p : Partners) (y : Sys) : Move → Prop
  | .push w => p.next y .write = some (.push w)
  | .popRes => p.hostReads = true
  | .readStatus => True
  | .reset _ => False
  | .block => True
  | .popPulse => p.consumerPops = true

/-- An endless run: at each moment one agent makes its move, or nothing happens. -/
def IsTrace (y : Nat → Sys) (m : Nat → Option Move) : Prop :=
  ∀ n, match m n with
    | some k => (y n).move k = some (y (n + 1))
    | none => y (n + 1) = y n

/-- Every move of the run is one these partners make. -/
def Follows (p : Partners) (y : Nat → Sys) (m : Nat → Option Move) : Prop :=
  ∀ n k, m n = some k → p.allows (y n) k

/-- Weak fairness (R124), the model's only assumption about time: a step that stays enabled is eventually
taken. DESIGN CHOICE: the steps meant are those of the block and those the partners mean to make; a STATUS
read and a reset are none of these (log 16). -/
def Fair (p : Partners) (y : Nat → Sys) (m : Nat → Option Move) : Prop :=
  ∀ (k : Task) (n : Nat), ∃ i, n ≤ i ∧ (¬ (y i).Ready p k ∨ m i = p.next (y i) k)

/-! ### The observation (R125) -/

/-- The observation of a final state (R125): the results read and those still in RES, the pulses popped, and
ILL. -/
structure Observation where
  results : List Word
  sent : List Pulse
  ill : Bool
  deriving DecidableEq, Repr

/-- The observation of a system (R125). -/
def Sys.observe (y : Sys) : Observation := ⟨y.read ++ y.block.res, y.sent, y.block.ill⟩

/-- The host's duty from a state with COLLECT = `collect`: data words exactly while a count is open, and no
count left open at the end. -/
def dutyFrom (collect : Count) : List Instr → Bool
  | [] => decide (collect = 0)
  | i :: is => i.fits collect && dutyFrom (collectOf collect i) is

/-- The host's duty on what it writes after reset (R46, R119, D22): each ENCODE_MANY is followed by exactly its
count of data words. DEDUCED: it is judged on what the host means each word as, since a word does not say
whether it is meant as data; and a reserved operation word outside a count (program P3) raises IllegalOp but
breaches no duty, as these rules ask for the data words alone (log 24). -/
def hostDutyMet (meant : List Instr) : Bool := dutyFrom 0 meant

/-! ### What the assembler must refuse (R61) -/

/-- Three operands of which one does not fit a byte. -/
def overByte (a b c : Nat) : Bool := decide (2 ^ 8 ≤ a) || decide (2 ^ 8 ≤ b) || decide (2 ^ 8 ≤ c)

/-- A line with an operand that does not fit its field (R61), the count and the colours of a FRAME included
(R62). -/
def AsmLine.misfits : AsmLine → Bool
  | .hsv2rgb h s v => overByte h s v
  | .encode r g b => overByte r g b
  | .encodeMany n => decide (2 ^ 24 ≤ n)
  | .color r g b => overByte r g b
  | .word x => decide (2 ^ 32 ≤ x)
  | .nop => false
  | .frame cs => decide (2 ^ 24 ≤ cs.length) || cs.any fun c => overByte c.1 c.2.1 c.2.2

/-! ### SHIFT is never observed before it is written (R20, R114) -/

/-- Equal but for SHIFT, and in SHIFT too while an EMIT step could read it. -/
def State.SameButShift (s t : State) : Prop :=
  { s with shift := 0 } = { t with shift := 0 } ∧ (s.emit ≠ 0 → s.shift = t.shift)

/-- Systems that a host and a consumer cannot tell apart: the same history, and blocks that agree but for an
unread SHIFT. -/
def Sys.SameButShift (y z : Sys) : Prop :=
  State.SameButShift y.block z.block ∧ { y with block := State.reset } = { z with block := State.reset }

end Sys2Proof.Machine
end

