-- ==== Sys2Proof/Certificates/Slice0/Obligations.lean ====
section
/-! DEFINITION. The statements for the provers. Each docstring names the rules or sections it comes from. -/

open Sys2Proof Sys2Proof.Machine

/-! ### Encoding (30_encoding.md) -/

/-- R63 (and R51, R52): the decode function, with the fields of R11 written as arithmetic on the word's
value. -/
def Obligations.DecodeReadsFieldsByMode : Prop :=
  ∀ (collect : Count) (w : Word),
    let opc := w.toNat / 2 ^ 24
    let a := BitVec.ofNat 8 (w.toNat / 2 ^ 16)
    let b := BitVec.ofNat 8 (w.toNat / 2 ^ 8)
    let c := BitVec.ofNat 8 w.toNat
    (collect ≠ 0 → decode collect w = .data ⟨a, b, c⟩) ∧
    (collect = 0 → opc = 1 → decode collect w = .hsv2rgb a b c) ∧
    (collect = 0 → opc = 2 → decode collect w = .encode ⟨a, b, c⟩) ∧
    (collect = 0 → opc = 3 → decode collect w = .encodeMany (BitVec.ofNat 24 w.toNat)) ∧
    (collect = 0 → opc ≠ 1 → opc ≠ 2 → opc ≠ 3 → decode collect w = .reserved w)

/-- R53, R59 (30_encoding.md sections 2 and 3): bits 31:24 of a data word do not matter. -/
def Obligations.DataWordIgnoresTopByte : Prop :=
  ∀ (collect : Count) (c : Color) (x : Byte), collect ≠ 0 →
    decode collect (x ++ c.r ++ c.g ++ c.b) = .data c

/-- Decode after encode (R49, R50, R53, R63): for every well-formed instruction of every kind, in the mode
that reads it, with every operand value. -/
def Obligations.DecodeOfEncode : Prop :=
  ∀ (i : Instr) (collect : Count), i.wf = true → i.fits collect = true → decode collect (encode i) = i

/-- The other direction: every word decodes to a well-formed instruction of the present mode, an operation
word is the encoding of what it decodes to, and a data word is so up to its ignored byte. -/
def Obligations.EncodeOfDecode : Prop :=
  ∀ (collect : Count) (w : Word),
    (decode collect w).wf = true ∧ (decode collect w).fits collect = true ∧
    (collect = 0 → encode (decode collect w) = w) ∧
    (collect ≠ 0 → encode (decode collect w) = (0 : Byte) ++ w.extractLsb' 0 24)

/-- R52 (30_encoding.md section 2 and opcode_table.json): each word belongs to exactly one row of the opcode
table for operation words, the row of the instruction it decodes to. -/
def Obligations.OpTableRowIsTheDecodedOne : Prop :=
  ∀ w : Word, (opTable.filter fun row => row.has w).map OpRow.mnemonic = [(decode 0 w).mnemonic]

/-- Words written out from the encodings of 30_encoding.md and the vectors of 95_test_vectors.md. -/
def Obligations.WrittenOutWordsDecode : Prop :=
  decode 0 0x0100FFFF = .hsv2rgb 0 255 255 ∧
  decode 0 0x01112233 = .hsv2rgb 0x11 0x22 0x33 ∧
  decode 0 0x02123456 = .encode ⟨0x12, 0x34, 0x56⟩ ∧
  decode 0 0x03ABCDEF = .encodeMany 0xABCDEF ∧
  decode 3 0x03000002 = .data ⟨0, 0, 2⟩ ∧
  decode 1 0xFF123456 = .data ⟨0x12, 0x34, 0x56⟩ ∧
  decode 0 0x04123456 = .reserved 0x04123456 ∧
  decode 0 0x00FF0000 = .reserved 0x00FF0000 ∧
  decode 0 0xFFFFFFFF = .reserved 0xFFFFFFFF

/-- R57: the RES word of a colour, and that its bits 23:0 read as the operand of an ENCODE or as a data word
without rearranging. -/
def Obligations.ResultWordReadsAsOperand : Prop :=
  ∀ (x : Color) (collect : Count) (top : Byte),
    resWord x = (0x00 : Byte) ++ x.r ++ x.g ++ x.b ∧
    decode 0 ((0x02 : Byte) ++ (resWord x).extractLsb' 0 24) = .encode x ∧
    (collect ≠ 0 → decode collect (top ++ (resWord x).extractLsb' 0 24) = .data x)

/-- R119, R60 (70_reset_and_hazards.md section 3): after a header of count n the next n words are colours
whatever they hold, the words after them are decoded afresh, and a surplus colour word is reserved. -/
def Obligations.OpenCountTakesExactlyItsWords : Prop :=
  ∀ (n : Count) (ws rest : List Word) (x : Color), ws.length = n.toNat →
    decodeStream 0 (encode (.encodeMany n) :: (ws ++ rest)) =
      .encodeMany n :: (ws.map fun w => .data (colorOf w)) ++ decodeStream 0 rest ∧
    decode 0 (encode (.data x)) = .reserved (encode (.data x))

/-! ### The step -/

/-- R89, R91 (41_color_codec.md section 3): with EMIT = 0 a step runs what the oldest word of CMD decodes to;
with EMIT > 0 it is the EMIT step; with neither a word nor a pulse to handle the block waits (the answer of
a wait, the same state, is the model's choice, log 2). -/
def Obligations.StepRunsDecodedWord : Prop :=
  (∀ (s : State) (w : Word) (rest : List Word), s.emit = 0 → s.cmd = w :: rest →
    step s = exec (decode s.collect w) s) ∧
  (∀ s : State, s.emit ≠ 0 → step s = emitStep s) ∧
  (∀ s : State, s.emit = 0 → s.cmd = [] → step s = .next s)

/-- A word placed by `withFetchWord` is the one the next step runs, read as an operation word (the placing
is the model's convention, log 7). -/
def Obligations.PlacedWordRunsNext : Prop :=
  ∀ (s : State) (nbits w : Nat), nbits ≤ 32 →
    ∃ i, decodeTableWord nbits w = some i ∧
      step (s.withFetchWord nbits w) = exec i (s.withFetchWord nbits w) ∧
      (s.withFetchWord nbits w).shift = s.shift ∧ (s.withFetchWord nbits w).ill = s.ill ∧
      (s.withFetchWord nbits w).res = s.res ∧ (s.withFetchWord nbits w).pulse = s.pulse

/-! ### The instructions: where each completes, and its whole next state (40, 41, 60) -/

/-- R65 (40_color_space.md section 2): HSV2RGB takes its word and pushes `0x00 ++ r ++ g ++ b` of HSV_IMPL on
RES; nothing else changes. -/
def Obligations.Hsv2rgbPushesItsColor : Prop :=
  ∀ (h sat v : Byte) (s : State) (w : Word) (rest : List Word),
    s.collect = 0 → s.emit = 0 → s.cmd = w :: rest → s.res.length < hw.resDepth →
    exec (.hsv2rgb h sat v) s =
      .next { s with cmd := rest
                     res := s.res ++ [(0x00 : Byte) ++ (hw.hsvImpl h sat v).r ++ (hw.hsvImpl h sat v).g
                                      ++ (hw.hsvImpl h sat v).b] }

/-- R65, R123: while RES is full an HSV2RGB word stays at the head of CMD and nothing changes (that a wait
answers the same state is the model's choice, log 2). -/
def Obligations.Hsv2rgbWaitsOnFullRes : Prop :=
  ∀ (h sat v : Byte) (s : State), hw.resDepth ≤ s.res.length → exec (.hsv2rgb h sat v) s = .next s

/-- R82, R77: ENCODE takes its word, sets SHIFT to `g ++ r ++ b` and EMIT to 24; nothing else changes. -/
def Obligations.EncodeLoadsItsColor : Prop :=
  ∀ (x : Color) (s : State) (w : Word) (rest : List Word),
    s.collect = 0 → s.emit = 0 → s.cmd = w :: rest →
    exec (.encode x) s = .next { s with cmd := rest, shift := x.g ++ x.r ++ x.b, emit := 24 }

/-- R86: ENCODE_MANY takes its word and sets COLLECT; nothing else changes, and with n = 0 nothing but the
taking of the word happens. -/
def Obligations.EncodeManyOpensItsCount : Prop :=
  ∀ (n : Count) (s : State) (w : Word) (rest : List Word),
    s.collect = 0 → s.emit = 0 → s.cmd = w :: rest →
    exec (.encodeMany n) s = .next { s with cmd := rest, collect := n } ∧
    exec (.encodeMany 0) s = .next { s with cmd := rest }

/-- R87, R77: a data word sets SHIFT to `g ++ r ++ b` and EMIT to 24 and counts COLLECT down by one, without
wrapping (R18); nothing else changes. -/
def Obligations.DataLoadsItsColorAndCountsDown : Prop :=
  ∀ (x : Color) (s : State) (w : Word) (rest : List Word),
    s.collect ≠ 0 → s.emit = 0 → s.cmd = w :: rest →
    ∃ c : Count, c.toNat + 1 = s.collect.toNat ∧
      exec (.data x) s =
        .next { s with cmd := rest, shift := x.g ++ x.r ++ x.b, emit := 24, collect := c }

/-- R100, R104: a reserved word is taken, sets ILL and is discarded; nothing else changes. -/
def Obligations.ReservedSetsOnlyIll : Prop :=
  ∀ (x : Word) (s : State) (w : Word) (rest : List Word),
    s.collect = 0 → s.emit = 0 → s.cmd = w :: rest →
    exec (.reserved x) s = .next { s with cmd := rest, ill := true }

/-- R12, R89: in a state where an instruction's word cannot be taken (EMIT is not 0, CMD is empty, or COLLECT
selects the other decoding mode) it waits (log 2, log 13). -/
def Obligations.InstructionWaitsUntilTaken : Prop :=
  ∀ (i : Instr) (s : State), s.emit ≠ 0 ∨ s.cmd = [] ∨ i.fits s.collect = false → exec i s = .next s

/-- The frame of every instruction (R28, R65, R82, R86, R87, R98, R100): it never
touches PULSE, and CMD loses at most its oldest word; only HSV2RGB writes RES, only ENCODE and DATA
write SHIFT and EMIT, only ENCODE_MANY and DATA write COLLECT, only RESERVED writes ILL. That it answers a next state in every
state, one in which it waits or in which the block never runs it included, is the model's choice (log 2,
log 13). -/
def Obligations.InstructionFrame : Prop :=
  ∀ (i : Instr) (s : State), ∃ t, exec i s = .next t ∧
    t.pulse = s.pulse ∧
    (t.cmd = s.cmd ∨ t.cmd = s.cmd.tail) ∧
    ((∀ h sat v, i ≠ .hsv2rgb h sat v) → t.res = s.res) ∧
    ((∀ x, i ≠ .encode x) → (∀ x, i ≠ .data x) → t.shift = s.shift ∧ t.emit = s.emit) ∧
    ((∀ n, i ≠ .encodeMany n) → (∀ x, i ≠ .data x) → t.collect = s.collect) ∧
    ((∀ w, i ≠ .reserved w) → t.ill = s.ill)

/-- R90: the EMIT step pushes the pulse of `SHIFT[EMIT - 1]` and counts EMIT down; nothing else changes. -/
def Obligations.EmitStepPushesNextPulse : Prop :=
  ∀ s : State, s.emit ≠ 0 → s.emit.toNat ≤ 24 → s.pulse.length < hw.pulseDepth →
    ∃ e : BitVec 5, e.toNat + 1 = s.emit.toNat ∧
      step s = .next { s with pulse := s.pulse ++ [if s.shift.getLsbD (s.emit.toNat - 1)
                                                   then ⟨hw.t1h, hw.t1l⟩ else ⟨hw.t0h, hw.t0l⟩]
                              emit := e }

/-- R90, R12: while PULSE is full the EMIT step waits (log 2). The values 25 to 31 of EMIT, which never
occur, stop the model by name (log 5). -/
def Obligations.EmitStepWaitsOrStops : Prop :=
  (∀ s : State, s.emit ≠ 0 → s.emit.toNat ≤ 24 → hw.pulseDepth ≤ s.pulse.length → step s = .next s) ∧
  (∀ s : State, 24 < s.emit.toNat → step s = .fault .emitOutOfRange)

/-- R91: at most one block step is enabled in any state, and where none is all the
block's state is kept (R110); that the block then answers the same state is the model's choice (log 2). -/
def Obligations.AtMostOneBlockStepEnabled : Prop :=
  (∀ s : State, ¬ (acceptEnabled s = true ∧ emitEnabled s = true)) ∧
  (∀ s : State, s.emit.toNat ≤ 24 → blockEnabled s = false → step s = .next s)

/-- R39 (e), R89, R90 (20_memory.md section 3): the block takes a word only when EMIT = 0, and then exactly
one and pushes no pulse; otherwise it takes no word and pushes exactly one pulse. -/
def Obligations.BlockTakesAWordOrPushesAPulse : Prop :=
  ∀ y z : Sys, y.block.emit.toNat ≤ 24 → y.move .block = some z →
    (y.block.emit = 0 → (∃ w, y.block.cmd = w :: z.block.cmd ∧ z.taken = y.taken ++ [w]) ∧
      z.block.pulse = y.block.pulse) ∧
    (y.block.emit ≠ 0 → z.taken = y.taken ∧ z.acc = y.acc ∧ z.block.cmd = y.block.cmd ∧
      z.block.res = y.block.res ∧ ∃ p, z.block.pulse = y.block.pulse ++ [p])

/-! ### Invariants -/

/-- R29 and R24 to R26: every step of the block keeps the invariants, from every state that has them. -/
def Obligations.StepKeepsStateInvariants : Prop :=
  ∀ s t : State, s.Inv → step s = .next t → t.Inv

/-- R98, R101: in a state with the invariants no step faults or refuses. That a state in which the block waits
(full, stuck or idle) has a next state, the same one, is the model's choice (log 2). -/
def Obligations.StepNeverStops : Prop := ∀ s : State, s.Inv → ∃ t, step s = .next t

/-- R111 (70_reset_and_hazards.md section 1): the state after reset has the invariants, whatever SHIFT came
out as. -/
def Obligations.ResetStateHasInvariants : Prop :=
  State.reset.Inv ∧ ∀ sh, (State.resetWith sh).Inv

/-- R92, R29, R31, R39: every move of every agent keeps the stream law, the word law and the invariants,
from every system that has them. -/
def Obligations.EveryMoveKeepsSystemInvariants : Prop :=
  ∀ (m : Move) (y z : Sys), y.Inv → y.move m = some z → z.Inv

/-- R92: the stream law, in every reachable state and for every interleaving. -/
def Obligations.StreamLawHoldsWhenReachable : Prop :=
  ∀ y : Sys, y.Reachable →
    y.sent ++ y.block.pulse ++
        (List.range y.block.emit.toNat).reverse.map (fun i => pulseOf hw (y.block.shift.getLsbD i)) =
      encodeManyPulses hw y.acc

/-- R31, R39 (10_state.md section 7, 20_memory.md section 3): in every reachable state the results, the
colours, ILL and COLLECT are what the words taken so far determine, and words are taken in the order
written. -/
def Obligations.OutputsFollowFromWordsTaken : Prop := ∀ y : Sys, y.Reachable → y.WordLaw

/-- R125, R92 (70_reset_and_hazards.md section 5): at a final state, for partners whose host writes `p.program`,
the observation is a function of that program alone. -/
def Obligations.FinalObservationIsDetermined : Prop :=
  ∀ (p : Partners) (y : Sys), y.Reachable → y.Final p →
    y.observe =
      ⟨(decodeStream 0 p.program).flatMap (instrResults hw),
       encodeManyPulses hw ((decodeStream 0 p.program).flatMap instrColors),
       (decodeStream 0 p.program).any instrIsReserved⟩

/-- R41, R118: BUSY = 0 means every pulse of every colour taken is on PULSE or popped; with CMD empty too,
every word written has been taken. -/
def Obligations.NotBusyMeansHandedOver : Prop :=
  ∀ y : Sys, y.Reachable → busy y.block = false →
    y.sent ++ y.block.pulse = encodeManyPulses hw y.acc ∧ (y.block.cmd = [] → y.taken = y.pushed)

/-! ### Delivery -/

/-- R90, R92: from any state, as many times as EMIT says, the block pushes and the consumer pops; the
consumer then has the pending pulses, and only EMIT has changed in the block. -/
def Obligations.DrainDeliversPendingPulses : Prop :=
  ∀ y : Sys, y.block.emit.toNat ≤ 24 → y.block.pulse = [] →
    Sys.run (drainMoves y.block.emit.toNat) y =
      some { y with block := { y.block with emit := 0 }, sent := y.sent ++ pendingPulses hw y.block }

/-- R93, first part: `ENCODE_MANY n` and n data words, each taken and drained, deliver exactly `encode_many`,
24 pulses a colour, and the block returns to COLLECT = 0 and EMIT = 0. -/
def Obligations.EncodeManyDeliversAllColors : Prop :=
  ∀ (y : Sys) (xs : List Color), xs.length < 2 ^ 24 →
    y.block.collect = 0 → y.block.emit = 0 → y.block.cmd = [] → y.block.pulse = [] →
    ∃ z, Sys.run (encodeManyMoves xs) y = some z ∧
      z.sent = y.sent ++ encodeManyPulses hw xs ∧ (encodeManyPulses hw xs).length = 24 * xs.length ∧
      z.block.collect = 0 ∧ z.block.emit = 0 ∧ z.block.cmd = [] ∧ z.block.pulse = [] ∧
      z.block.ill = y.block.ill ∧ z.block.res = y.block.res

/-- R93, second part: n ENCODE words for the same colours give the same pulse sequence. -/
def Obligations.EncodeEachDeliversTheSame : Prop :=
  ∀ (y : Sys) (xs : List Color),
    y.block.collect = 0 → y.block.emit = 0 → y.block.cmd = [] → y.block.pulse = [] →
    ∃ z, Sys.run (encodeEachMoves xs) y = some z ∧ z.sent = y.sent ++ encodeManyPulses hw xs ∧
      z.block.collect = 0 ∧ z.block.emit = 0 ∧ z.block.cmd = [] ∧ z.block.pulse = [] ∧
      z.block.ill = y.block.ill ∧ z.block.res = y.block.res

/-! ### STATUS, ILL and reset -/

/-- R22: the bits of STATUS, and its value after reset. -/
def Obligations.StatusBitsAreComputed : Prop :=
  (∀ s : State,
    (status s).getLsbD 0 = decide (s.collect ≠ 0 ∨ s.emit ≠ 0) ∧
    (status s).getLsbD 1 = s.ill ∧
    (status s).getLsbD 2 = decide (s.collect ≠ 0) ∧
    ∀ i, 3 ≤ i → (status s).getLsbD i = false) ∧
  (∀ sh, status (State.resetWith sh) = 0)

/-- R23, R46, R47 (20_memory.md section 4): a push touches only CMD, a result pop only RES, a pulse pop only
PULSE, each at its own end, and a STATUS read touches nothing. -/
def Obligations.PartnerMovesTouchOneChannel : Prop :=
  ∀ y z : Sys,
    (∀ w, y.move (.push w) = some z →
      z.block = { y.block with cmd := y.block.cmd ++ [w] } ∧ y.block.cmd.length < hw.cmdDepth) ∧
    (y.move .popRes = some z → ∃ w, y.block.res = w :: z.block.res ∧
      z.block = { y.block with res := z.block.res } ∧ z.read = y.read ++ [w]) ∧
    (y.move .popPulse = some z → ∃ p, y.block.pulse = p :: z.block.pulse ∧
      z.block = { y.block with pulse := z.block.pulse } ∧ z.sent = y.sent ++ [p]) ∧
    (y.move .readStatus = some z → z.block = y.block ∧ z.polls = y.polls ++ [status y.block])

/-- R21, R105: ILL is sticky: no move but reset clears it, and no move sets it but the block's taking of a
word that decodes as reserved. -/
def Obligations.IllIsStickyUntilReset : Prop :=
  ∀ (m : Move) (y z : Sys), (∀ sh, m ≠ .reset sh) → y.block.emit.toNat ≤ 24 → y.move m = some z →
    (y.block.ill = true → z.block.ill = true) ∧
    (y.block.ill = false → z.block.ill = true → m = .block ∧
      ∃ w rest, y.block.cmd = w :: rest ∧ decode y.block.collect w = .reserved w)

/-- R111: reset is enabled in every state and leaves the registers and channels as R111 says, SHIFT being
any value; STATUS reads 0, and no block step is enabled until the host writes a word (R112). -/
def Obligations.ResetClearsTheBlock : Prop :=
  ∀ (y : Sys) (sh : Wire), ∃ z, y.move (.reset sh) = some z ∧
    z.block.collect = 0 ∧ z.block.emit = 0 ∧ z.block.ill = false ∧ z.block.shift = sh ∧
    z.block.cmd = [] ∧ z.block.res = [] ∧ z.block.pulse = [] ∧
    status z.block = 0 ∧ blockEnabled z.block = false

/-- R20, R114, I6. One move: systems that agree in all but a SHIFT that no step reads stay so, and the second
has every move the first has. Runs: two runs of the same moves from resets in which SHIFT came out differently
cannot be told apart: the second exists and has the same history and observation. So nothing rests on the value
this model gives SHIFT at reset (log 1). -/
def Obligations.ResetValueOfShiftIsNeverObserved : Prop :=
  (∀ (m : Move) (y y' z : Sys), y.SameButShift z → y.move m = some y' →
    ∃ z', z.move m = some z' ∧ y'.SameButShift z') ∧
  (∀ (a b : Wire) (ms : List Move) (y : Sys), Sys.run ms (Sys.start a) = some y →
    ∃ z, Sys.run ms (Sys.start b) = some z ∧ y.SameButShift z ∧
      y.observe = z.observe ∧ status y.block = status z.block)

/-! ### Waiting, stuck and final states (R123, R125, R126) -/

/-- R126, R125 (70_reset_and_hazards.md section 5): a block with no enabled step is idle, or it waits as in
(a), (b) or (c), and in (b) and (c) its partner has an item to take. A final state is no stuck state, and in
neither is a block step enabled. Where nothing more happens the state is final, stuck, or one of the two that
neither rule lists, which are named by the model (log 23). -/
def Obligations.WaitingStatesAreClassified : Prop :=
  (∀ s : State, blockEnabled s = false ↔ s.Idle ∨ s.AwaitsData ∨ s.AwaitsRes ∨ s.AwaitsPulse) ∧
  (∀ s : State, s.AwaitsRes → s.res ≠ []) ∧
  (∀ s : State, s.AwaitsPulse → s.pulse ≠ []) ∧
  (∀ (p : Partners) (y : Sys), y.Final p → ¬ y.Stuck p) ∧
  (∀ (p : Partners) (y : Sys), y.Final p ∨ y.Stuck p → blockEnabled y.block = false ∧ y.pushed = p.program) ∧
  (∀ (p : Partners) (y : Sys), y.block.emit.toNat ≤ 24 → y.pushed <+: p.program → y.Halted p →
    y.Final p ∨ y.Stuck p ∨ y.Unpopped p ∨ y.Unwritten p)

/-- R123: while the host leaves RES full, an HSV2RGB word at the head of CMD blocks every later word,
whatever else the agents do. -/
def Obligations.UnreadResultsBlockLaterWords : Prop :=
  ∀ (ms : List Move) (y z : Sys), y.block.AwaitsRes → Sys.run ms y = some z →
    (∀ m ∈ ms, m ≠ .popRes ∧ ∀ sh, m ≠ .reset sh) →
    z.block.AwaitsRes ∧ z.taken = y.taken ∧ ∃ later, z.block.cmd = y.block.cmd ++ later

/-! ### The codec functions (41_color_codec.md) -/

/-- R77: the wire word has g in bits 23:16, r in bits 15:8 and b in bits 7:0. -/
def Obligations.WireWordIsGreenRedBlue : Prop :=
  ∀ x : Color, wireWord x = x.g ++ x.r ++ x.b ∧ (wireWord x).extractLsb' 16 8 = x.g ∧
    (wireWord x).extractLsb' 8 8 = x.r ∧ (wireWord x).extractLsb' 0 8 = x.b

/-- R78: pulse k of a colour is P1 or P0 as bit 23 - k of the wire word is 1 or 0. -/
def Obligations.EncodePulseIsBitOfWireWord : Prop :=
  ∀ (c : Config) (x : Color), (encodePulses c x).length = 24 ∧ ∀ k, k < 24 →
    (encodePulses c x)[k]? = some (if (wireWord x).getLsbD (23 - k) then ⟨c.t1h, c.t1l⟩ else ⟨c.t0h, c.t0l⟩)

/-- R83 (41_color_codec.md section 2): pulse k carries channel `[g, r, b][k / 8]`, bit `7 - (k mod 8)`. -/
def Obligations.PulseIndexMapsToChannelBit : Prop :=
  ∀ (c : Config) (x : Color) (k : Nat) (ch : Byte), [x.g, x.r, x.b][k / 8]? = some ch →
    (encodePulses c x)[k]? = some (pulseOf c (ch.getLsbD (7 - k % 8)))

/-- R79, R80: `encode_many` is the concatenation of the colours' pulses, colour 0 first: 24 for each colour,
and pulse `24 * i + k` is pulse k of colour i. -/
def Obligations.EncodeManyConcatenatesInOrder : Prop :=
  ∀ (c : Config) (xs : List Color),
    encodeManyPulses c xs = (xs.map (encodePulses c)).flatten ∧ encodeManyPulses c [] = [] ∧
    (encodeManyPulses c xs).length = 24 * xs.length ∧ (∀ x, (encodePulses c x).length = 24) ∧
    ∀ (i k : Nat) (x : Color), xs[i]? = some x → k < 24 →
      (encodeManyPulses c xs)[24 * i + k]? = (encodePulses c x)[k]?

/-- R81 (41_color_codec.md section 1): on a well-formed configuration the 24 pulses give the colour back, so
`encode` is injective. -/
def Obligations.DecodeOfPulsesGivesColorBack : Prop :=
  ∀ c : Config, c.wf = true →
    (∀ x, decode24 c (encodePulses c x) = x) ∧ Function.Injective (encodePulses c)

/-- R84, R47 (e): chunks of any size n > 0 are the same sequence of pulses, each of at most n pulses; and so are
the chunks this model's consumer takes whatever its CHUNK_CAP (that CHUNK_CAP = 0 is as 1 is the model's
choice, log 22). -/
def Obligations.ChunkingKeepsTheSequence : Prop :=
  (∀ (n fuel : Nat) (ps : List Pulse), 0 < n → ps.length ≤ fuel →
    (chunksOf fuel n ps).flatten = ps ∧ ∀ ch ∈ chunksOf fuel n ps, 0 < ch.length ∧ ch.length ≤ n) ∧
  (∀ (p : Params) (ps : List Pulse), (chunksTaken p ps).flatten = ps ∧
    ∀ ch ∈ chunksTaken p ps, 0 < ch.length ∧ (0 < p.chunkCap → ch.length ≤ p.chunkCap))

/-- R85 (41_color_codec.md section 2), for the words taken since reset: there is one frame for each ENCODE_MANY,
in order, of as many colours as its count (a count of 0 gives none, DEDUCED, log 19); every frame but the last
is whole, and the last lacks the colours COLLECT still expects; the frames hold all the colours of data words,
and with the runs of ENCODEs between them all the colours. -/
def Obligations.FramesPartitionTheColors : Prop :=
  ∀ ws : List Word,
    let is := decodeStream 0 ws
    (manyFrames is).map Frame.size = is.filterMap instrFrameSize ∧
    (∀ f ∈ (manyFrames is).dropLast, f.whole = true) ∧
    (∀ f, (manyFrames is).getLast? = some f → f.colors.length + (collectAfter 0 ws).toNat = f.size) ∧
    (manyFrames is).flatMap Frame.colors = is.flatMap dataColors ∧
    (frameGroups is).flatMap FrameGroup.colors = is.flatMap instrColors

/-- R47 (b), (c), (d), R85, R120 (20_memory.md section 4, 70_reset_and_hazards.md section 3): at a final state
whose frames are whole, a consumer that meets its duties has transmitted exactly those frames, each with a
latch gap after its last pulse and no idle time of the threshold or more inside. How the consumer learns
where a frame ends is left to it, the model's choice (log 21). -/
def Obligations.DutiesTransmitTheFrames : Prop :=
  ∀ (p : Partners) (y : Sys) (threshold : Nat) (frames : List Frame) (t : Transmission),
    y.Reachable → y.Final p → (∀ f ∈ frames, f.whole = true) → y.dutiesMet threshold frames t = true →
      t.frames.map sentPulses = frames.map (Frame.pulses hw) ∧ frames.flatMap Frame.colors = y.acc ∧
      hw.tResetMin ≤ t.lead ∧
      ∀ x ∈ t.frames, (∃ z, x.getLast? = some z ∧ hw.tResetMin ≤ z.idle) ∧
        ∀ z ∈ x.dropLast, z.idle < threshold

/-! ### HSV to RGB (40_color_space.md) -/

/-- R68, R70: on a block with any permitted HSV_IMPL, the word of `HSV2RGB 0, 255, 255` pushes pure red. -/
def Obligations.PermittedHsvGivesRedAtHueZero : Prop :=
  ∀ (c : Config) (s : State) (w : Word) (rest : List Word), c.hsvPermitted →
    s.collect = 0 → s.emit = 0 → s.cmd = w :: rest → s.res.length < c.resDepth →
    hsv2rgbOn c 0 255 255 s = .next { s with cmd := rest, res := s.res ++ [0x00FF0000] }

/-- R68, R69, R67 and the vectors of 95_test_vectors.md, under the premise R75 asks for: HSV_IMPL is the
reference of R66 (the model's choice after R8 and D14, log 4). -/
def Obligations.ReferenceHsvVectors : Prop :=
  hw.hsvImpl = hsvReference →
    hw.hsvPermitted ∧
    hw.hsvImpl 0 255 255 = ⟨255, 0, 0⟩ ∧ hw.hsvImpl 85 255 255 = ⟨3, 255, 0⟩ ∧
    hw.hsvImpl 255 255 255 = ⟨255, 0, 15⟩ ∧ hw.hsvImpl 43 255 255 = ⟨254, 255, 0⟩ ∧
    hw.hsvImpl 128 255 255 = ⟨0, 255, 252⟩ ∧ hw.hsvImpl 170 255 255 = ⟨0, 9, 255⟩ ∧
    hw.hsvImpl 214 255 255 = ⟨252, 0, 255⟩ ∧ hw.hsvImpl 255 1 255 = ⟨255, 253, 254⟩ ∧
    hw.hsvImpl 128 128 128 = ⟨63, 128, 127⟩ ∧ hw.hsvImpl 64 255 128 = ⟨65, 128, 0⟩

/-- R72: with saturation 0 the reference gives grey; without that case `p` would be 254 for v = 255. -/
def Obligations.ZeroSaturationGivesGrey : Prop :=
  (∀ h v : Byte, hsvReference h 0 v = ⟨v, v, v⟩) ∧ hsvP 0 255 = 254

/-- R73 and 95_test_vectors.md, family 1: value 0 gives black, and no channel of the reference exceeds the
value. -/
def Obligations.ReferenceChannelsAreAtMostValue : Prop :=
  (∀ h sat : Byte, hsvReference h sat 0 = ⟨0, 0, 0⟩) ∧
  (∀ h sat v : Byte, (hsvReference h sat v).r ≤ v ∧ (hsvReference h sat v).g ≤ v ∧
    (hsvReference h sat v).b ≤ v)

/-- R74 (40_color_space.md section 5): the regions by hue, with the channels in the order r, g, b. -/
def Obligations.ReferenceRegionsByHue : Prop :=
  ∀ h sat v : Byte, sat ≠ 0 →
    let p := BitVec.ofNat 8 (hsvP sat v)
    let q := BitVec.ofNat 8 (hsvQ h sat v)
    let t := BitVec.ofNat 8 (hsvT h sat v)
    (h.toNat ≤ 42 → hsvReference h sat v = ⟨v, t, p⟩) ∧
    (43 ≤ h.toNat → h.toNat ≤ 85 → hsvReference h sat v = ⟨q, v, p⟩) ∧
    (86 ≤ h.toNat → h.toNat ≤ 128 → hsvReference h sat v = ⟨p, v, t⟩) ∧
    (129 ≤ h.toNat → h.toNat ≤ 171 → hsvReference h sat v = ⟨p, q, v⟩) ∧
    (172 ≤ h.toNat → h.toNat ≤ 214 → hsvReference h sat v = ⟨t, p, v⟩) ∧
    (215 ≤ h.toNat → hsvReference h sat v = ⟨v, p, q⟩)

/-- R66, R71, R11 (40_color_space.md sections 3 and 5): the reference's quantities are what 16-bit unsigned
arithmetic gives, with no overflow and nothing lost in the narrowing. -/
def Obligations.ReferenceIsExactAtSixteenBits : Prop :=
  ∀ h sat v : Byte,
    let h' : BitVec 16 := h.setWidth 16
    let s' : BitVec 16 := sat.setWidth 16
    let v' : BitVec 16 := v.setWidth 16
    let rem : BitVec 16 := (h' - (h' / 43) * 43) * 6
    hsvRegion h ≤ 5 ∧ hsvRemainder h ≤ 252 ∧ rem.toNat = hsvRemainder h ∧
    ((v' * (255 - s')) >>> 8).toNat = hsvP sat v ∧
    ((v' * ((255 : BitVec 16) - ((s' * rem) >>> 8))) >>> 8).toNat = hsvQ h sat v ∧
    ((v' * ((255 : BitVec 16) - ((s' * (255 - rem)) >>> 8))) >>> 8).toNat = hsvT h sat v ∧
    hsvP sat v ≤ 254 ∧ hsvQ h sat v ≤ 254 ∧ hsvT h sat v ≤ 254

/-! ### Configuration, channels and the assembler -/

/-- R9: a configuration is admitted exactly when the four conditions hold; this block's has been. -/
def Obligations.OnlyWellFormedConfigurationsAdmitted : Prop :=
  (∀ p : Params, p.checked.isSome = true ↔
    ((0 < p.t0h.toNat ∧ p.t0h.toNat < 2 ^ 16) ∧ (0 < p.t0l.toNat ∧ p.t0l.toNat < 2 ^ 16) ∧
     (0 < p.t1h.toNat ∧ p.t1h.toNat < 2 ^ 16) ∧ (0 < p.t1l.toNat ∧ p.t1l.toNat < 2 ^ 16)) ∧
    (p.t0h, p.t0l) ≠ (p.t1h, p.t1l) ∧ 0 < p.tResetMin ∧
    (1 ≤ p.cmdDepth ∧ 1 ≤ p.resDepth ∧ 1 ≤ p.pulseDepth)) ∧
  hw.toParams.checked.isSome = true

/-- R12 (00_scope.md section 6): push appends the newest item where there is room, pop takes the oldest where
there is one, and otherwise neither is enabled. -/
def Obligations.ChannelsAreFirstInFirstOut : Prop :=
  ∀ (d : Nat) (ch : List Word) (v : Word), 1 ≤ d →
    (ch.length < d → chanPush d ch v = some (ch ++ [v])) ∧ (d ≤ ch.length → chanPush d ch v = none) ∧
    (chanPop ([] : List Word) = none) ∧ chanPop (v :: ch) = some (v, ch)

/-- R62 (30_encoding.md section 4): FRAME assembles to a count and its colours, for every list that fits; an
empty FRAME and NOP both assemble to `0x03000000`. -/
def Obligations.FrameAssemblesToCountAndColors : Prop :=
  (∀ xs : List Color, xs.length < 2 ^ 24 →
    assemble [.frame (xs.map fun x => (x.r.toNat, x.g.toNat, x.b.toNat))] =
      some (encode (.encodeMany (BitVec.ofNat 24 xs.length)) :: xs.map fun x => encode (.data x))) ∧
  assemble [.frame []] = some [0x03000000] ∧ assemble [.nop] = some [0x03000000]

/-- R61: a line with an operand that does not fit its field is refused wherever it stands, inside an open count
and in the colours and count of a FRAME too, and so is a `.color` that no open count covers, after any
accepted lines. -/
def Obligations.AssemblerRefusesMisfits : Prop :=
  (∀ (pre : List AsmLine) (l : AsmLine) (ls : List AsmLine), l.misfits = true →
    assemble (pre ++ l :: ls) = none) ∧
  (∀ (pre : List AsmLine) (ws : List Word) (r g b : Nat) (ls : List AsmLine),
    assemble pre = some ws → collectAfter 0 ws = 0 → assemble (pre ++ .color r g b :: ls) = none) ∧
  (∀ (collect : Count) (l : AsmLine) (ls : List AsmLine), l.misfits = true →
    assembleFrom collect (l :: ls) = none ∧ assembleFrom collect (l.expand ++ ls) = none) ∧
  (∀ (r g b : Nat) (ls : List AsmLine), assembleFrom 0 (.color r g b :: ls) = none)

/-- R61, R119: a program the assembler accepts and that holds no `.word` never raises IllegalOp. It rests on the
assembler following the open count through operation words, DEDUCED from program P4 ("The last line is
written with `.word` because an assembler refuses a `.color` that no open count covers"; log 10). -/
def Obligations.AssembledOperationsAreNeverIllegal : Prop :=
  ∀ (ls : List AsmLine) (ws : List Word), (∀ l ∈ ls, ∀ x, l ≠ .word x) → assemble ls = some ws →
    (decodeStream 0 ws).any instrIsReserved = false

/-! ### The end of a run (R124, R125) -/

/-- R124, R125 (70_reset_and_hazards.md sections 4 and 5): under weak fairness every run of partners that keep
to a program comes to where nothing more happens; where the host goes on reading, the consumer goes on popping
and every count of the program has its data words, that is a final state with the observation of the program.
Which steps are fair is the model's choice (log 16). -/
def Obligations.FairRunsEnd : Prop :=
  ∀ (p : Partners) (y : Nat → Sys) (m : Nat → Option Move),
    IsTrace y m → Follows p y m → Fair p y m → (y 0).Inv → (y 0).pushed <+: p.program →
      (∃ i, (y i).Halted p) ∧
      (p.hostReads = true → p.consumerPops = true → collectAfter 0 p.program = 0 →
        ∃ i, (y i).Final p ∧ (y i).observe =
          ⟨(decodeStream 0 p.program).flatMap (instrResults hw),
           encodeManyPulses hw ((decodeStream 0 p.program).flatMap instrColors),
           (decodeStream 0 p.program).any instrIsReserved⟩)
end

