-- ==== Sys2Proof/Laws/Encoding.lean ====
section
/-! SUPPORT. The fields of the words the encoder writes, and a word put together from its fields. -/

namespace Sys2Proof

/-- Concatenation puts its left part in the more significant bits (R11). -/
theorem toNat_concat {m n : Nat} (x : BitVec m) (y : BitVec n) :
    (x ++ y).toNat = x.toNat * 2 ^ n + y.toNat := by
  rw [BitVec.toNat_append, ← Nat.shiftLeft_add_eq_or_of_lt y.isLt, Nat.shiftLeft_eq]

variable (o a b c : Byte) (n : Count) (w : Word)

theorem toNat_opcOf : (opcOf w).toNat = w.toNat / 2 ^ 24 := by
  have := w.isLt
  simp only [opcOf, BitVec.extractLsb'_toNat, Nat.shiftRight_eq_div_pow]; omega

theorem toNat_fieldA : (fieldA w).toNat = w.toNat / 2 ^ 16 % 2 ^ 8 := by
  simp only [fieldA, BitVec.extractLsb'_toNat, Nat.shiftRight_eq_div_pow]

theorem toNat_fieldB : (fieldB w).toNat = w.toNat / 2 ^ 8 % 2 ^ 8 := by
  simp only [fieldB, BitVec.extractLsb'_toNat, Nat.shiftRight_eq_div_pow]

theorem toNat_fieldC : (fieldC w).toNat = w.toNat % 2 ^ 8 := by
  simp [fieldC, BitVec.extractLsb'_toNat]

theorem toNat_fieldN : (fieldN w).toNat = w.toNat % 2 ^ 24 := by
  simp [fieldN, BitVec.extractLsb'_toNat]

theorem toNat_formatT : (formatT o a b c).toNat =
    ((o.toNat * 2 ^ 8 + a.toNat) * 2 ^ 8 + b.toNat) * 2 ^ 8 + c.toNat := by
  simp only [formatT, toNat_concat]

theorem toNat_formatN : (formatN o n).toNat = o.toNat * 2 ^ 24 + n.toNat := toNat_concat o n

@[simp] theorem opcOf_formatT : opcOf (formatT o a b c) = o := by
  apply BitVec.eq_of_toNat_eq
  rw [toNat_opcOf, toNat_formatT]
  have := o.isLt; have := a.isLt; have := b.isLt; have := c.isLt
  omega

@[simp] theorem fieldA_formatT : fieldA (formatT o a b c) = a := by
  apply BitVec.eq_of_toNat_eq
  rw [toNat_fieldA, toNat_formatT]
  have := o.isLt; have := a.isLt; have := b.isLt; have := c.isLt
  omega

@[simp] theorem fieldB_formatT : fieldB (formatT o a b c) = b := by
  apply BitVec.eq_of_toNat_eq
  rw [toNat_fieldB, toNat_formatT]
  have := o.isLt; have := a.isLt; have := b.isLt; have := c.isLt
  omega

@[simp] theorem fieldC_formatT : fieldC (formatT o a b c) = c := by
  apply BitVec.eq_of_toNat_eq
  rw [toNat_fieldC, toNat_formatT]
  have := o.isLt; have := a.isLt; have := b.isLt; have := c.isLt
  omega

@[simp] theorem opcOf_formatN : opcOf (formatN o n) = o := by
  apply BitVec.eq_of_toNat_eq
  rw [toNat_opcOf, toNat_formatN]
  have := o.isLt; have := n.isLt
  omega

@[simp] theorem fieldN_formatN : fieldN (formatN o n) = n := by
  apply BitVec.eq_of_toNat_eq
  rw [toNat_fieldN, toNat_formatN]
  have := o.isLt; have := n.isLt
  omega

/-- A word is its opcode and its three operand bytes (R49). -/
theorem formatT_fields : formatT (opcOf w) (fieldA w) (fieldB w) (fieldC w) = w := by
  apply BitVec.eq_of_toNat_eq
  rw [toNat_formatT, toNat_opcOf, toNat_fieldA, toNat_fieldB, toNat_fieldC]
  omega

/-- A word is its opcode and its count field (R50). -/
theorem formatN_fields : formatN (opcOf w) (fieldN w) = w := by
  apply BitVec.eq_of_toNat_eq
  rw [toNat_formatN, toNat_opcOf, toNat_fieldN]
  omega

@[simp] theorem colorOf_formatT (x : Color) : colorOf (formatT o x.r x.g x.b) = x := by
  simp [colorOf]

/-! ### Decoding, one lemma per arm of R63 -/

variable {collect : Count} {w}

theorem decode_of_open (h : collect ≠ 0) : decode collect w = .data (colorOf w) := if_pos h

theorem decode_zero : decode 0 w = decodeOp w := if_neg (by simp)

theorem decodeOp_hsv2rgb (h : opcOf w = 0x01) :
    decodeOp w = .hsv2rgb (fieldA w) (fieldB w) (fieldC w) := if_pos h

theorem decodeOp_encode (h : opcOf w = 0x02) : decodeOp w = .encode (colorOf w) := by
  rw [decodeOp, if_neg (by rw [h]; decide), if_pos h]

theorem decodeOp_encodeMany (h : opcOf w = 0x03) : decodeOp w = .encodeMany (fieldN w) := by
  rw [decodeOp, if_neg (by rw [h]; decide), if_neg (by rw [h]; decide), if_pos h]

theorem decodeOp_reserved (h1 : opcOf w ≠ 0x01) (h2 : opcOf w ≠ 0x02) (h3 : opcOf w ≠ 0x03) :
    decodeOp w = .reserved w := by
  rw [decodeOp, if_neg h1, if_neg h2, if_neg h3]

/-- The reserved opcodes are those of no operation (R52, R59). -/
theorem reservedOpc_iff (o : Byte) : reservedOpc o = true ↔ o ≠ 0x01 ∧ o ≠ 0x02 ∧ o ≠ 0x03 := by
  revert o; decide

/-- Everything an operation word can be read as. -/
theorem decodeOp_cases (w : Word) :
    (opcOf w = 0x01 ∧ decodeOp w = .hsv2rgb (fieldA w) (fieldB w) (fieldC w)) ∨
    (opcOf w = 0x02 ∧ decodeOp w = .encode (colorOf w)) ∨
    (opcOf w = 0x03 ∧ decodeOp w = .encodeMany (fieldN w)) ∨
    (reservedOpc (opcOf w) = true ∧ decodeOp w = .reserved w) := by
  by_cases h1 : opcOf w = 0x01
  · exact .inl ⟨h1, decodeOp_hsv2rgb h1⟩
  by_cases h2 : opcOf w = 0x02
  · exact .inr (.inl ⟨h2, decodeOp_encode h2⟩)
  by_cases h3 : opcOf w = 0x03
  · exact .inr (.inr (.inl ⟨h3, decodeOp_encodeMany h3⟩))
  exact .inr (.inr (.inr ⟨(reservedOpc_iff _).mpr ⟨h1, h2, h3⟩, decodeOp_reserved h1 h2 h3⟩))

/-! ### COLLECT along a sequence of words -/

@[simp] theorem collectOf_data (n : Count) (x : Color) : collectOf n (.data x) = n - 1 := rfl
@[simp] theorem collectOf_encodeMany (n m : Count) : collectOf n (.encodeMany m) = m := rfl
@[simp] theorem collectOf_hsv2rgb (n : Count) (h s v : Byte) : collectOf n (.hsv2rgb h s v) = n := rfl
@[simp] theorem collectOf_encode (n : Count) (x : Color) : collectOf n (.encode x) = n := rfl
@[simp] theorem collectOf_reserved (n : Count) (x : Word) : collectOf n (.reserved x) = n := rfl

theorem nextCollect_of_open (h : collect ≠ 0) : nextCollect collect w = collect - 1 := by
  rw [nextCollect, decode_of_open h, collectOf_data]

theorem decodeStream_append (collect : Count) (ws vs : List Word) :
    decodeStream collect (ws ++ vs) =
      decodeStream collect ws ++ decodeStream (collectAfter collect ws) vs := by
  induction ws generalizing collect with
  | nil => rfl
  | cons w ws ih => simp [decodeStream, collectAfter, ih]

theorem collectAfter_append (collect : Count) (ws vs : List Word) :
    collectAfter collect (ws ++ vs) = collectAfter (collectAfter collect ws) vs := by
  induction ws generalizing collect with
  | nil => rfl
  | cons w ws ih => simp [collectAfter, ih]

theorem decodeStream_snoc (collect : Count) (ws : List Word) (w : Word) :
    decodeStream collect (ws ++ [w]) = decodeStream collect ws ++ [decode (collectAfter collect ws) w] :=
  decodeStream_append collect ws [w]

theorem collectAfter_snoc (collect : Count) (ws : List Word) (w : Word) :
    collectAfter collect (ws ++ [w]) = nextCollect (collectAfter collect ws) w :=
  collectAfter_append collect ws [w]

end Sys2Proof
end

