-- ==== Sys2Proof/Laws/Assembler.lean ====
section
/-! SUPPORT. What the assembler does with lines one after another, and with a line that does not fit. -/

namespace Sys2Proof.Machine

theorem fitsIn_of_lt {b n : Nat} (h : n < 2 ^ b) : fitsIn b n = some (BitVec.ofNat b n) := if_pos h

theorem fitsIn_of_le {b n : Nat} (h : 2 ^ b ≤ n) : fitsIn b n = none := if_neg (by omega)

theorem fitColor_of_overByte {a b c : Nat} (h : overByte a b c = true) : fitColor a b c = none := by
  simp only [overByte, Bool.or_eq_true, decide_eq_true_eq] at h
  unfold fitColor
  rcases h with (h | h) | h <;> rw [fitsIn_of_le h]
  · cases fitsIn 8 a <;> rfl
  · cases fitsIn 8 a <;> cases fitsIn 8 b <;> rfl

/-- A line that does not fit has no word, whatever the open count. -/
theorem toWord_of_misfits {l : AsmLine} (h : l.misfits = true) (collect : Count) : l.toWord collect = none := by
  cases l with
  | hsv2rgb a b d => simp only [AsmLine.toWord, fitColor_of_overByte h]
  | encode a b d => simp [AsmLine.toWord, fitColor_of_overByte h]
  | encodeMany n =>
    simp only [AsmLine.misfits, decide_eq_true_eq] at h
    simp [AsmLine.toWord, fitsIn_of_le h]
  | color a b d => simp [AsmLine.toWord, fitColor_of_overByte h]
  | word x =>
    simp only [AsmLine.misfits, decide_eq_true_eq] at h
    simp [AsmLine.toWord, fitsIn_of_le h]
  | nop => rfl
  | frame cs => rfl

/-- Lines one after another: the second part starts from the count the first leaves open. -/
theorem assembleFrom_append (a b : List AsmLine) (collect : Count) : assembleFrom collect (a ++ b) =
    (assembleFrom collect a).bind fun ws => (assembleFrom (collectAfter collect ws) b).map (ws ++ ·) := by
  induction a generalizing collect with
  | nil => simp [assembleFrom, collectAfter]
  | cons l ls ih =>
    simp only [List.cons_append, assembleFrom]
    cases e : l.toWord collect with
    | none => rfl
    | some w =>
      simp only [ih]
      cases e2 : assembleFrom (nextCollect collect w) ls with
      | none => simp
      | some ws => simp [collectAfter, Function.comp_def]

end Sys2Proof.Machine
end

