-- ==== Sys2Proof/Laws/Channel.lean ====
section
/-! SUPPORT. What the channel operations do (R12), and the well-formedness of this block's configuration
(R9). -/

namespace Sys2Proof.Machine

/-- This block's configuration is well-formed (R9), whatever the OPEN parameters are. -/
theorem hw_wf : hw.wf = true := openParams.ok

theorem depths_pos {p : Params} (h : p.wf = true) : 1 ≤ p.cmdDepth ∧ 1 ≤ p.resDepth ∧ 1 ≤ p.pulseDepth := by
  simp only [Params.wf, Params.depthsPositive, Bool.and_eq_true, decide_eq_true_eq] at h
  exact ⟨h.2.1.1, h.2.1.2, h.2.2⟩

theorem hw_cmdDepth_pos : 1 ≤ hw.cmdDepth := (depths_pos hw_wf).1
theorem hw_resDepth_pos : 1 ≤ hw.resDepth := (depths_pos hw_wf).2.1
theorem hw_pulseDepth_pos : 1 ≤ hw.pulseDepth := (depths_pos hw_wf).2.2

/-- The two pulses of a well-formed configuration differ (R9 condition 2). -/
theorem p0_ne_p1 {c : Config} (h : c.wf = true) : c.p0 ≠ c.p1 := by
  simp only [Params.wf, Params.pairsDiffer, Bool.and_eq_true, decide_eq_true_eq] at h
  intro e
  simp only [Config.p0, Config.p1, Pulse.mk.injEq] at e
  exact h.1.1.2 (by rw [e.1, e.2])

variable {α : Type}

/-- An empty channel has room whatever the depth. -/
@[simp] theorem hasRoom_nil (d : Nat) : hasRoom d ([] : List α) = true := rfl

theorem hasRoom_iff {d : Nat} (hd : 1 ≤ d) (ch : List α) : hasRoom d ch = true ↔ ch.length < d := by
  cases ch with
  | nil => simp; omega
  | cons a as => simp [hasRoom]

theorem hasRoom_false_iff {d : Nat} (hd : 1 ≤ d) (ch : List α) : hasRoom d ch = false ↔ d ≤ ch.length := by
  rw [← Bool.not_eq_true, hasRoom_iff hd]; omega

theorem chanPush_of_room {d : Nat} {ch : List α} (h : hasRoom d ch = true) (v : α) :
    chanPush d ch v = some (ch ++ [v]) := by simp [chanPush, h]

theorem chanPush_of_full {d : Nat} {ch : List α} (h : hasRoom d ch = false) (v : α) :
    chanPush d ch v = none := by simp [chanPush, h]

/-- A push that happens appends the newest item and needed room. -/
theorem chanPush_eq_some {d : Nat} {ch q : List α} {v : α} :
    chanPush d ch v = some q ↔ hasRoom d ch = true ∧ q = ch ++ [v] := by
  cases h : hasRoom d ch with
  | true => rw [chanPush_of_room h]; simp [eq_comm]
  | false => rw [chanPush_of_full h]; simp

/-- A push keeps the channel within its capacity. -/
theorem chanPush_length_le {d : Nat} (hd : 1 ≤ d) {ch q : List α} {v : α} (h : chanPush d ch v = some q) :
    q.length ≤ d := by
  obtain ⟨hr, rfl⟩ := chanPush_eq_some.mp h
  rw [hasRoom_iff hd] at hr
  simp; omega

@[simp] theorem chanPop_nil : chanPop ([] : List α) = none := rfl
@[simp] theorem chanPop_cons (v : α) (q : List α) : chanPop (v :: q) = some (v, q) := rfl

/-- A pop that happens removes the oldest item. -/
theorem chanPop_eq_some {ch q : List α} {v : α} : chanPop ch = some (v, q) ↔ ch = v :: q := by
  cases ch <;> simp

end Sys2Proof.Machine
end

