-- ==== Sys2Proof/Laws/State.lean ====
section
/-! SUPPORT. The fields of State after each named update, one lemma per field, all true by rfl. -/

namespace Sys2Proof.Machine

@[simp] theorem loadColor_collect (c : Color) (s : State) : (loadColor c s).collect = s.collect := rfl
@[simp] theorem loadColor_emit (c : Color) (s : State) : (loadColor c s).emit = 24 := rfl
@[simp] theorem loadColor_shift (c : Color) (s : State) : (loadColor c s).shift = wireWord c := rfl
@[simp] theorem loadColor_ill (c : Color) (s : State) : (loadColor c s).ill = s.ill := rfl
@[simp] theorem loadColor_cmd (c : Color) (s : State) : (loadColor c s).cmd = s.cmd := rfl
@[simp] theorem loadColor_res (c : Color) (s : State) : (loadColor c s).res = s.res := rfl
@[simp] theorem loadColor_pulse (c : Color) (s : State) : (loadColor c s).pulse = s.pulse := rfl

@[simp] theorem raise_collect (k : ExceptionCause) (w : Word) (s : State) :
    (raise k w s).collect = s.collect := by cases k; rfl
@[simp] theorem raise_emit (k : ExceptionCause) (w : Word) (s : State) :
    (raise k w s).emit = s.emit := by cases k; rfl
@[simp] theorem raise_shift (k : ExceptionCause) (w : Word) (s : State) :
    (raise k w s).shift = s.shift := by cases k; rfl
@[simp] theorem raise_ill (k : ExceptionCause) (w : Word) (s : State) :
    (raise k w s).ill = true := by cases k; rfl
@[simp] theorem raise_cmd (k : ExceptionCause) (w : Word) (s : State) :
    (raise k w s).cmd = s.cmd := by cases k; rfl
@[simp] theorem raise_res (k : ExceptionCause) (w : Word) (s : State) :
    (raise k w s).res = s.res := by cases k; rfl
@[simp] theorem raise_pulse (k : ExceptionCause) (w : Word) (s : State) :
    (raise k w s).pulse = s.pulse := by cases k; rfl

@[simp] theorem resetWith_collect (x : Wire) : (State.resetWith x).collect = 0 := rfl
@[simp] theorem resetWith_emit (x : Wire) : (State.resetWith x).emit = 0 := rfl
@[simp] theorem resetWith_shift (x : Wire) : (State.resetWith x).shift = x := rfl
@[simp] theorem resetWith_ill (x : Wire) : (State.resetWith x).ill = false := rfl
@[simp] theorem resetWith_cmd (x : Wire) : (State.resetWith x).cmd = [] := rfl
@[simp] theorem resetWith_res (x : Wire) : (State.resetWith x).res = [] := rfl
@[simp] theorem resetWith_pulse (x : Wire) : (State.resetWith x).pulse = [] := rfl

@[simp] theorem withFetchWord_collect (s : State) (n w : Nat) : (s.withFetchWord n w).collect = 0 := rfl
@[simp] theorem withFetchWord_emit (s : State) (n w : Nat) : (s.withFetchWord n w).emit = 0 := rfl
@[simp] theorem withFetchWord_shift (s : State) (n w : Nat) : (s.withFetchWord n w).shift = s.shift := rfl
@[simp] theorem withFetchWord_ill (s : State) (n w : Nat) : (s.withFetchWord n w).ill = s.ill := rfl
@[simp] theorem withFetchWord_cmd (s : State) (n w : Nat) :
    (s.withFetchWord n w).cmd = tableWord n w :: s.cmd.tail := rfl
@[simp] theorem withFetchWord_res (s : State) (n w : Nat) : (s.withFetchWord n w).res = s.res := rfl
@[simp] theorem withFetchWord_pulse (s : State) (n w : Nat) : (s.withFetchWord n w).pulse = s.pulse := rfl

/-- The data-mode test is the test of COLLECT (R51). -/
@[simp] theorem dataPend_iff (s : State) : dataPend s = true ↔ s.collect ≠ 0 := by simp [dataPend]

@[simp] theorem dataPend_false_iff (s : State) : dataPend s = false ↔ s.collect = 0 := by
  simp [dataPend]

end Sys2Proof.Machine
end

