-- ==== Sys2Proof/Laws/Ops.lean ====
section
/-! SUPPORT. What an ACCEPT step and an EMIT step can do: one lemma per shared operation and per
instruction, saying everything it can answer. -/

namespace Sys2Proof.Machine

/-- The condition under which an ACCEPT step takes a word (R89). -/
structure Takes (asData : Bool) (s : State) (w : Word) (rest : List Word) : Prop where
  emit : s.emit = 0
  mode : dataPend s = asData
  cmd : s.cmd = w :: rest

/-- With the condition met, the word is popped and the instruction goes on. -/
theorem takeWord_of_takes {asData : Bool} {s : State} {w : Word} {rest : List Word}
    (h : Takes asData s w rest) (k : State → Result) : takeWord asData s k = k { s with cmd := rest } := by
  simp [takeWord, h.emit, h.mode, h.cmd]

/-- With no word to take, the step waits. -/
theorem takeWord_of_not_takes {asData : Bool} {s : State} (h : ∀ w rest, ¬ Takes asData s w rest)
    (k : State → Result) : takeWord asData s k = .next s := by
  unfold takeWord
  split
  case isTrue hc =>
    cases hcmd : s.cmd with
    | nil => rfl
    | cons w rest => exact absurd ⟨hc.1, hc.2, hcmd⟩ (h w rest)
  case isFalse => rfl

/-! ### The instructions, one lemma per outcome -/

variable {s : State} {w : Word} {rest : List Word}

theorem exec_hsv2rgb_of_room (ht : Takes false s w rest) (hr : hasRoom hw.resDepth s.res = true)
    (h sat v : Byte) : exec (.hsv2rgb h sat v) s =
      .next { s with cmd := rest, res := s.res ++ [resWord (hw.hsvImpl h sat v)] } := by
  simp [exec, execHsv2rgb, hsv2rgbOn, takeWord_of_takes ht, chanPush_of_room hr]

theorem exec_hsv2rgb_of_full (ht : Takes false s w rest) (hr : hasRoom hw.resDepth s.res = false)
    (h sat v : Byte) : exec (.hsv2rgb h sat v) s = .next s := by
  simp [exec, execHsv2rgb, hsv2rgbOn, takeWord_of_takes ht, chanPush_of_full hr, wait]

theorem exec_encode_of_takes (ht : Takes false s w rest) (c : Color) :
    exec (.encode c) s = .next { s with cmd := rest, shift := wireWord c, emit := 24 } := by
  rw [exec, execEncode, takeWord_of_takes ht]; rfl

theorem exec_encodeMany_of_takes (ht : Takes false s w rest) (n : Count) :
    exec (.encodeMany n) s = .next { s with cmd := rest, collect := n } := by
  rw [exec, execEncodeMany, takeWord_of_takes ht]

theorem exec_data_of_takes (ht : Takes true s w rest) (c : Color) : exec (.data c) s =
    .next { s with cmd := rest, shift := wireWord c, emit := 24, collect := s.collect - 1 } := by
  rw [exec, execData, takeWord_of_takes ht]; rfl

theorem exec_reserved_of_takes (ht : Takes false s w rest) (x : Word) :
    exec (.reserved x) s = .next { s with cmd := rest, ill := true } := by
  rw [exec, execReserved, takeWord_of_takes ht]; rfl

theorem exec_of_not_takes {i : Instr} (h : ∀ w rest, ¬ Takes i.isData s w rest) :
    exec i s = .next s := by
  cases i with
  | hsv2rgb a b c => rw [exec, execHsv2rgb, hsv2rgbOn]; exact takeWord_of_not_takes h _
  | encode c => rw [exec, execEncode]; exact takeWord_of_not_takes h _
  | encodeMany n => rw [exec, execEncodeMany]; exact takeWord_of_not_takes h _
  | data c => rw [exec, execData]; exact takeWord_of_not_takes h _
  | reserved x => rw [exec, execReserved]; exact takeWord_of_not_takes h _

/-- Everything `exec` can answer: the instruction is taken with its effect, HSV2RGB waits for RES, or no
word is taken and the state is the same. -/
theorem exec_cases (i : Instr) (s : State) :
    (∃ w rest, Takes i.isData s w rest ∧
      ((∃ h sat v, i = .hsv2rgb h sat v ∧ hasRoom hw.resDepth s.res = true ∧
          exec i s = .next { s with cmd := rest, res := s.res ++ [resWord (hw.hsvImpl h sat v)] }) ∨
       (∃ h sat v, i = .hsv2rgb h sat v ∧ hasRoom hw.resDepth s.res = false ∧ exec i s = .next s) ∨
       (∃ c, i = .encode c ∧ exec i s = .next { s with cmd := rest, shift := wireWord c, emit := 24 }) ∨
       (∃ n, i = .encodeMany n ∧ exec i s = .next { s with cmd := rest, collect := n }) ∨
       (∃ c, i = .data c ∧ exec i s =
          .next { s with cmd := rest, shift := wireWord c, emit := 24, collect := s.collect - 1 }) ∨
       (∃ x, i = .reserved x ∧ exec i s = .next { s with cmd := rest, ill := true }))) ∨
    ((∀ w rest, ¬ Takes i.isData s w rest) ∧ exec i s = .next s) := by
  by_cases h : ∃ w rest, Takes i.isData s w rest
  case neg =>
    have h' : ∀ w rest, ¬ Takes i.isData s w rest := fun w rest ht => h ⟨w, rest, ht⟩
    exact .inr ⟨h', exec_of_not_takes h'⟩
  obtain ⟨w, rest, ht⟩ := h
  refine .inl ⟨w, rest, ht, ?_⟩
  cases i with
  | hsv2rgb h sat v =>
    cases hr : hasRoom hw.resDepth s.res with
    | true => exact .inl ⟨h, sat, v, rfl, rfl, exec_hsv2rgb_of_room ht hr h sat v⟩
    | false => exact .inr (.inl ⟨h, sat, v, rfl, rfl, exec_hsv2rgb_of_full ht hr h sat v⟩)
  | encode c => exact .inr (.inr (.inl ⟨c, rfl, exec_encode_of_takes ht c⟩))
  | encodeMany n => exact .inr (.inr (.inr (.inl ⟨n, rfl, exec_encodeMany_of_takes ht n⟩)))
  | data c => exact .inr (.inr (.inr (.inr (.inl ⟨c, rfl, exec_data_of_takes ht c⟩))))
  | reserved x => exact .inr (.inr (.inr (.inr (.inr ⟨x, rfl, exec_reserved_of_takes ht x⟩))))

/-! ### The EMIT step -/

theorem emitStep_of_zero (h : s.emit = 0) : emitStep s = .next s := by simp [emitStep, emitOn, h, wait]

theorem emitStep_of_illegal (h : 24 < s.emit) : emitStep s = .fault .emitOutOfRange := by
  have h0 : s.emit ≠ 0 := fun e => by rw [e] at h; exact absurd h (by decide)
  rw [emitStep, emitOn, if_neg h0, if_pos h]

theorem emitStep_of_room (h0 : s.emit ≠ 0) (h : s.emit ≤ 24) (hr : hasRoom hw.pulseDepth s.pulse = true) :
    emitStep s = .next { s with pulse := s.pulse ++ [pulseOf hw (s.shift.getLsbD (s.emit.toNat - 1))],
                                emit := s.emit - 1 } := by
  rw [emitStep, emitOn, if_neg h0, if_neg (BitVec.not_lt.mpr h), chanPush_of_room hr]

theorem emitStep_of_full (h0 : s.emit ≠ 0) (h : s.emit ≤ 24) (hr : hasRoom hw.pulseDepth s.pulse = false) :
    emitStep s = .next s := by
  rw [emitStep, emitOn, if_neg h0, if_neg (BitVec.not_lt.mpr h), chanPush_of_full hr]
  rfl

/-- Everything the EMIT step can answer (R90). -/
theorem emitStep_cases (s : State) :
    (s.emit = 0 ∧ emitStep s = .next s) ∨
    (24 < s.emit ∧ emitStep s = .fault .emitOutOfRange) ∨
    (s.emit ≠ 0 ∧ s.emit ≤ 24 ∧ hasRoom hw.pulseDepth s.pulse = true ∧
      emitStep s = .next { s with pulse := s.pulse ++ [pulseOf hw (s.shift.getLsbD (s.emit.toNat - 1))],
                                  emit := s.emit - 1 }) ∨
    (s.emit ≠ 0 ∧ s.emit ≤ 24 ∧ hasRoom hw.pulseDepth s.pulse = false ∧ emitStep s = .next s) := by
  by_cases h0 : s.emit = 0
  · exact .inl ⟨h0, emitStep_of_zero h0⟩
  by_cases h1 : (24 : BitVec 5) < s.emit
  · exact .inr (.inl ⟨h1, emitStep_of_illegal h1⟩)
  have h2 : s.emit ≤ 24 := BitVec.not_lt.mp h1
  cases hr : hasRoom hw.pulseDepth s.pulse with
  | true => exact .inr (.inr (.inl ⟨h0, h2, rfl, emitStep_of_room h0 h2 hr⟩))
  | false => exact .inr (.inr (.inr ⟨h0, h2, rfl, emitStep_of_full h0 h2 hr⟩))

/-! ### The step -/

theorem fetch_of_cmd (h0 : s.emit = 0) (hc : s.cmd = w :: rest) :
    fetch s = some (decode s.collect w) := by simp [fetch, h0, hc]

theorem fetch_eq_some {i : Instr} :
    fetch s = some i ↔ s.emit = 0 ∧ ∃ w rest, s.cmd = w :: rest ∧ i = decode s.collect w := by
  unfold fetch
  by_cases h : s.emit = 0
  · cases hc : s.cmd <;> simp only [h] <;> simp [eq_comm]
  · simp only [h]; simp

/-- An instruction that decodes is one of the mode COLLECT selects (R51). -/
theorem decode_isData (collect : Count) (w : Word) : (decode collect w).isData = decide (collect ≠ 0) := by
  unfold decode decodeOp
  by_cases h : collect = 0
  · simp only [h, ne_eq, not_true, if_false]
    split_ifs <;> simp [Instr.isData]
  · simp only [ne_eq, h, not_false_eq_true, if_true, Instr.isData]
    rfl

/-- The word at the head of CMD is taken by the instruction it decodes to. -/
theorem takes_of_cmd (h0 : s.emit = 0) (hc : s.cmd = w :: rest) :
    Takes (decode s.collect w).isData s w rest :=
  ⟨h0, by rw [decode_isData]; rfl, hc⟩

theorem step_of_cmd (h0 : s.emit = 0) (hc : s.cmd = w :: rest) :
    step s = exec (decode s.collect w) s := by simp [step, fetch_of_cmd h0 hc]

theorem step_of_emit (h : s.emit ≠ 0) : step s = emitStep s := by
  simp only [step, fetch, if_neg h]

theorem step_of_idle (h0 : s.emit = 0) (hc : s.cmd = []) : step s = .next s := by
  simp [step, fetch, h0, hc, emitStep, emitOn, wait]

end Sys2Proof.Machine
end

