-- ==== Sys2Proof/Laws/Codec.lean ====
section
/-! SUPPORT. The codec's lists of pulses: lengths, and the pulses still to come as EMIT falls. -/

namespace Sys2Proof.Machine

@[simp] theorem pulseOf_true (c : Config) : pulseOf c true = c.p1 := rfl
@[simp] theorem pulseOf_false (c : Config) : pulseOf c false = c.p0 := rfl

/-- Only P0 and P1 are ever emitted (R27). -/
theorem pulseOf_mem (c : Config) (b : Bool) : pulseOf c b = c.p0 ∨ pulseOf c b = c.p1 := by
  cases b <;> simp

@[simp] theorem encodeManyPulses_nil (c : Config) : encodeManyPulses c [] = [] := rfl

@[simp] theorem encodeManyPulses_cons (c : Config) (x : Color) (xs : List Color) :
    encodeManyPulses c (x :: xs) = encodePulses c x ++ encodeManyPulses c xs := rfl

@[simp] theorem encodeManyPulses_append (c : Config) (xs ys : List Color) :
    encodeManyPulses c (xs ++ ys) = encodeManyPulses c xs ++ encodeManyPulses c ys := List.flatMap_append

/-- With EMIT = 0 nothing is to come. -/
theorem pendingPulses_of_zero (c : Config) {s : State} (h : s.emit = 0) : pendingPulses c s = [] := by
  rw [pendingPulses, h]; rfl

/-- With EMIT = 24 all 24 pulses of the colour in SHIFT are to come. -/
theorem pendingPulses_of_loaded (c : Config) {s : State} {x : Color} (h : s.emit = 24)
    (hs : s.shift = wireWord x) : pendingPulses c s = encodePulses c x := by
  have hr : (List.range 24).reverse = (List.range 24).map (23 - ·) := by decide
  rw [pendingPulses, h, hs]
  change (List.range 24).reverse.map _ = _
  rw [hr, List.map_map]
  rfl

/-- EMIT, when it is not 0, is one more than EMIT - 1. -/
theorem emit_toNat_pred {e : BitVec 5} (h : e ≠ 0) : e.toNat = (e - 1).toNat + 1 := by
  have : e.toNat ≠ 0 := fun h' => h (BitVec.eq_of_toNat_eq h')
  rw [BitVec.toNat_sub]
  have := e.isLt
  simp
  omega

/-- The next pulse to come is that of `SHIFT[EMIT - 1]`, the rest are those of EMIT - 1 (R90). -/
theorem pendingPulses_of_pos (c : Config) {s t : State} (h : s.emit ≠ 0) (he : t.emit = s.emit - 1)
    (hs : t.shift = s.shift) :
    pendingPulses c s = pulseOf c (s.shift.getLsbD (s.emit.toNat - 1)) :: pendingPulses c t := by
  rw [pendingPulses, pendingPulses, he, hs, emit_toNat_pred h, List.range_succ, List.reverse_append]
  rfl

end Sys2Proof.Machine
end

