-- ==== Sys2Proof/Laws/Frames.lean ====
section
/-! SUPPORT. The groups and frames of a sequence of instructions, one lemma for each instruction before it. -/

namespace Sys2Proof.Machine

variable (is : List Instr) (x : Color)

/-- Where no count is open, a sequence begins with no data word. -/
@[simp] theorem leadingData_of_closed (ws : List Word) : leadingData (decodeStream 0 ws) = [] := by
  cases ws with
  | nil => rfl
  | cons w ws =>
    simp only [decodeStream, decode_zero, decodeOp]
    split_ifs <;> rfl

@[simp] theorem frames_consEach (gs : List FrameGroup) :
    (consEach x gs).filterMap FrameGroup.frame? = gs.filterMap FrameGroup.frame? := by
  cases gs with
  | nil => rfl
  | cons g gs => cases g <;> rfl

@[simp] theorem colors_consEach (gs : List FrameGroup) :
    (consEach x gs).flatMap FrameGroup.colors = x :: gs.flatMap FrameGroup.colors := by
  cases gs with
  | nil => rfl
  | cons g gs => cases g <;> rfl

@[simp] theorem manyFrames_hsv2rgb (h s v : Byte) : manyFrames (.hsv2rgb h s v :: is) = manyFrames is := rfl
@[simp] theorem manyFrames_encode : manyFrames (.encode x :: is) = manyFrames is := frames_consEach ..
@[simp] theorem manyFrames_data : manyFrames (.data x :: is) = manyFrames is := rfl
@[simp] theorem manyFrames_reserved (w : Word) : manyFrames (.reserved w :: is) = manyFrames is := rfl
@[simp] theorem manyFrames_encodeMany_zero : manyFrames (.encodeMany 0 :: is) = manyFrames is := rfl

/-- An ENCODE_MANY with a count above 0 opens a frame of the data words after it. -/
theorem manyFrames_encodeMany {n : Count} (h : n ≠ 0) :
    manyFrames (.encodeMany n :: is) = ⟨n.toNat, leadingData is⟩ :: manyFrames is := by
  simp only [manyFrames, frameGroups, if_neg h]; rfl

end Sys2Proof.Machine
end

