-- ==== Sys2Proof/Laws/PerInstr.lean ====
section
/-! SUPPORT. Facts about every instruction as syntax, one lemma per constructor. -/

namespace Sys2Proof.Laws.OpcodeField

/-- The opcode byte of an instruction's word is the one R52 gives it; a data word has bits 31:24 zero
(R59). -/
def Statement (i : Instr) : Prop :=
  match i with
  | .hsv2rgb _ _ _ => opcOf (encode i) = 0x01
  | .encode _ => opcOf (encode i) = 0x02
  | .encodeMany _ => opcOf (encode i) = 0x03
  | .data _ => opcOf (encode i) = 0x00
  | .reserved _ => i.wf = true → reservedOpc (opcOf (encode i)) = true

theorem hsv2rgb (h s v : Byte) : Statement (.hsv2rgb h s v) := opcOf_formatT ..

theorem encode (c : Color) : Statement (.encode c) := opcOf_formatT ..

theorem encodeMany (n : Count) : Statement (.encodeMany n) := opcOf_formatN ..

theorem data (c : Color) : Statement (.data c) := opcOf_formatT ..

theorem reserved (w : Word) : Statement (.reserved w) := fun h => h

end Sys2Proof.Laws.OpcodeField
end

