-- ==== Sys2Proof/Laws/System.lean ====
section
/-! SUPPORT. What a block step and a move can do, said once. -/

namespace Sys2Proof.Machine

/-! ### Enabled block steps -/

theorem hasRoom_pulse_iff (s : State) : hasRoom hw.pulseDepth s.pulse = true ↔ s.pulse.length < hw.pulseDepth :=
  hasRoom_iff hw_pulseDepth_pos _

theorem acceptEnabled_emit {s : State} (h : acceptEnabled s = true) : s.emit = 0 := by
  unfold acceptEnabled at h
  cases hf : fetch s with
  | none => simp [hf] at h
  | some i => exact (fetch_eq_some.mp hf).1

theorem emitEnabled_emit {s : State} (h : emitEnabled s = true) : s.emit ≠ 0 := by
  simp only [emitEnabled, Bool.and_eq_true, decide_eq_true_eq] at h
  exact h.1

/-- Everything an enabled block step of a legal state does (R89, R90): the word taken, the colours taken, and
the next state. -/
theorem block_cases {s : State} (h : blockEnabled s = true) (hle : s.emit ≤ 24) :
    (∃ w rest, s.emit = 0 ∧ s.cmd = w :: rest ∧ fetch s = some (decode s.collect w) ∧
      ((∃ a b c, decode s.collect w = .hsv2rgb a b c ∧ hasRoom hw.resDepth s.res = true ∧
          step s = .next { s with cmd := rest, res := s.res ++ [resWord (hw.hsvImpl a b c)] }) ∨
       (∃ x, decode s.collect w = .encode x ∧
          step s = .next { s with cmd := rest, shift := wireWord x, emit := 24 }) ∨
       (∃ n, decode s.collect w = .encodeMany n ∧ step s = .next { s with cmd := rest, collect := n }) ∨
       (∃ x, decode s.collect w = .data x ∧ step s =
          .next { s with cmd := rest, shift := wireWord x, emit := 24, collect := s.collect - 1 }) ∨
       (∃ x, decode s.collect w = .reserved x ∧ step s = .next { s with cmd := rest, ill := true }))) ∨
    (s.emit ≠ 0 ∧ fetch s = none ∧ hasRoom hw.pulseDepth s.pulse = true ∧
      step s = .next { s with pulse := s.pulse ++ [pulseOf hw (s.shift.getLsbD (s.emit.toNat - 1))],
                              emit := s.emit - 1 }) := by
  by_cases h0 : s.emit = 0
  · left
    have ha : acceptEnabled s = true := by
      simp only [blockEnabled, Bool.or_eq_true] at h
      exact h.resolve_right fun he => emitEnabled_emit he h0
    unfold acceptEnabled at ha
    cases hf : fetch s with
    | none => simp [hf] at ha
    | some i =>
      obtain ⟨-, w, rest, hc, rfl⟩ := fetch_eq_some.mp hf
      have ht := takes_of_cmd h0 hc
      refine ⟨w, rest, h0, hc, rfl, ?_⟩
      rw [hf] at ha
      rw [step_of_cmd h0 hc]
      cases hd : decode s.collect w with
      | hsv2rgb a b c =>
        rw [hd] at ha ht
        exact .inl ⟨a, b, c, rfl, ha, exec_hsv2rgb_of_room ht ha a b c⟩
      | encode x => rw [hd] at ht; exact .inr (.inl ⟨x, rfl, exec_encode_of_takes ht x⟩)
      | encodeMany n => rw [hd] at ht; exact .inr (.inr (.inl ⟨n, rfl, exec_encodeMany_of_takes ht n⟩))
      | data x => rw [hd] at ht; exact .inr (.inr (.inr (.inl ⟨x, rfl, exec_data_of_takes ht x⟩)))
      | reserved x => rw [hd] at ht; exact .inr (.inr (.inr (.inr ⟨x, rfl, exec_reserved_of_takes ht x⟩)))
  · right
    have hr : hasRoom hw.pulseDepth s.pulse = true := by
      simp only [blockEnabled, emitEnabled, Bool.or_eq_true, Bool.and_eq_true] at h
      exact (h.resolve_left fun ha => h0 (acceptEnabled_emit ha)).2
    refine ⟨h0, ?_, hr, ?_⟩
    · rw [fetch, if_neg h0]
    · rw [step_of_emit h0, emitStep_of_room h0 hle hr]

/-- A block step that is not enabled waits (R110). -/
theorem step_of_not_enabled {s : State} (h : blockEnabled s = false) (hle : s.emit ≤ 24) :
    step s = .next s := by
  simp only [blockEnabled, Bool.or_eq_false_iff] at h
  by_cases h0 : s.emit = 0
  · cases hc : s.cmd with
    | nil => exact step_of_idle h0 hc
    | cons w rest =>
      have ht := takes_of_cmd h0 hc
      have ha := h.1
      rw [acceptEnabled, fetch_of_cmd h0 hc] at ha
      rw [step_of_cmd h0 hc]
      cases hd : decode s.collect w with
      | hsv2rgb a b c => rw [hd] at ha ht; exact exec_hsv2rgb_of_full ht ha a b c
      | encode x => rw [hd] at ha; simp [resReady] at ha
      | encodeMany n => rw [hd] at ha; simp [resReady] at ha
      | data x => rw [hd] at ha; simp [resReady] at ha
      | reserved x => rw [hd] at ha; simp [resReady] at ha
  · have he := h.2
    simp only [emitEnabled, Bool.and_eq_false_iff] at he
    rw [step_of_emit h0, emitStep_of_full h0 hle]
    exact he.resolve_left fun hb => of_decide_eq_false hb h0

/-- An ACCEPT step takes the oldest word (R89). -/
theorem takenBy_of_cmd {s : State} {w : Word} {rest : List Word} (h0 : s.emit = 0) (hc : s.cmd = w :: rest) :
    takenBy s = [w] := by rw [takenBy, if_pos h0, hc]; rfl

/-- An EMIT step takes no word. -/
theorem takenBy_of_emit {s : State} (h : s.emit ≠ 0) : takenBy s = [] := by rw [takenBy, if_neg h]

theorem colorsBy_of_fetch {s : State} {i : Instr} (h : fetch s = some i) : colorsBy s = instrColors i := by
  rw [colorsBy, h]

theorem colorsBy_of_no_fetch {s : State} (h : fetch s = none) : colorsBy s = [] := by rw [colorsBy, h]

theorem blockEnabled_of_fetch {s : State} {i : Instr} (hf : fetch s = some i) (hr : resReady s i = true) :
    blockEnabled s = true := by simp [blockEnabled, acceptEnabled, hf, hr]

theorem blockEnabled_of_emit {s : State} (h : s.emit ≠ 0) (hr : hasRoom hw.pulseDepth s.pulse = true) :
    blockEnabled s = true := by simp only [blockEnabled, emitEnabled, decide_eq_true h, hr]; simp

/-- EMIT counted down from a legal value is legal (R19). -/
theorem emit_pred_le {e : BitVec 5} (h0 : e ≠ 0) (h : e.toNat ≤ 24) : (e - 1).toNat ≤ 24 := by
  have := emit_toNat_pred h0; omega

/-! ### Moves -/

variable {y z : Sys}

theorem move_push {w : Word} : y.move (.push w) = some z ↔ ∃ q, chanPush hw.cmdDepth y.block.cmd w = some q ∧
    z = { y with block := { y.block with cmd := q }, pushed := y.pushed ++ [w] } := by
  cases h : chanPush hw.cmdDepth y.block.cmd w with
  | none => simp [Sys.move, h]
  | some q => simp only [Sys.move, h]; simp [eq_comm]

theorem move_popRes : y.move .popRes = some z ↔ ∃ w q, y.block.res = w :: q ∧
    z = { y with block := { y.block with res := q }, read := y.read ++ [w] } := by
  cases h : y.block.res with
  | nil => simp [Sys.move, h]
  | cons w q => simp only [Sys.move, h, chanPop_cons]; simp [eq_comm]

theorem move_readStatus : y.move .readStatus = some z ↔ z = { y with polls := y.polls ++ [status y.block] } := by
  simp [Sys.move, eq_comm]

theorem move_reset {sh : Wire} : y.move (.reset sh) = some z ↔ z = Sys.start sh := by
  simp [Sys.move, eq_comm]

theorem move_popPulse : y.move .popPulse = some z ↔ ∃ p q, y.block.pulse = p :: q ∧
    z = { y with block := { y.block with pulse := q }, sent := y.sent ++ [p] } := by
  cases h : y.block.pulse with
  | nil => simp [Sys.move, h]
  | cons p q => simp only [Sys.move, h, chanPop_cons]; simp [eq_comm]

theorem move_block : y.move .block = some z ↔ blockEnabled y.block = true ∧ ∃ s, step y.block = .next s ∧
    z = { y with block := s, taken := y.taken ++ takenBy y.block, acc := y.acc ++ colorsBy y.block } := by
  cases hb : blockEnabled y.block with
  | false => simp [Sys.move, hb]
  | true =>
    cases hs : step y.block with
    | next s => simp only [Sys.move, hb, hs, if_true]; simp [eq_comm]
    | fault r => simp [Sys.move, hb, hs]
    | refused r => simp [Sys.move, hb, hs]

/-! ### The host's duty -/

/-- Taken as what they decode to, words keep the duty exactly when they leave no count open: a host breaches it
otherwise only by meaning a word as what it is not taken as (R119). -/
theorem dutyFrom_decodeStream (ws : List Word) (collect : Count) :
    dutyFrom collect (decodeStream collect ws) = decide (collectAfter collect ws = 0) := by
  induction ws generalizing collect with
  | nil => rfl
  | cons w ws ih =>
    simp only [decodeStream, dutyFrom, Instr.fits, decode_isData, BEq.rfl, Bool.true_and]
    exact ih _

/-! ### Runs -/

@[simp] theorem run_nil : Sys.run [] y = some y := rfl

theorem run_cons {m : Move} {ms : List Move} {u : Sys} (h : y.move m = some u) :
    Sys.run (m :: ms) y = Sys.run ms u := by simp [Sys.run, h]

theorem run_append {ms ns : List Move} {u : Sys} (h : Sys.run ms y = some u) :
    Sys.run (ms ++ ns) y = Sys.run ns u := by
  induction ms generalizing y with
  | nil => cases h; rfl
  | cons m ms ih =>
    simp only [Sys.run, List.cons_append] at h ⊢
    split at h
    · exact ih h
    · cases h

/-- An invariant that every move keeps holds after every run. -/
theorem run_keeps {P : Sys → Prop} (hP : ∀ m y z, P y → y.move m = some z → P z) {ms : List Move}
    (h : Sys.run ms y = some z) (hy : P y) : P z := by
  induction ms generalizing y with
  | nil => cases h; exact hy
  | cons m ms ih =>
    simp only [Sys.run] at h
    split at h
    · exact ih h (hP _ _ _ hy ‹_›)
    · cases h

end Sys2Proof.Machine
end

