-- ==== Sys2Proof/Laws/Progress.lean ====
section
/-! SUPPORT. When each task is ready, and that the moves of partners who keep to a program use up a finite
amount of work. -/

namespace Sys2Proof.Machine

variable {p : Partners} {y z : Sys}

theorem ready_block (hle : y.block.emit ≤ 24) (h : blockEnabled y.block = true) : y.Ready p .block := by
  refine ⟨.block, rfl, ?_⟩
  have hm : ∀ s, step y.block = .next s → (y.move .block).isSome = true := fun s hs => by
    rw [move_block.mpr ⟨h, s, hs, rfl⟩]; rfl
  rcases block_cases h hle with ⟨w, rest, _, _, _, h'⟩ | ⟨_, _, _, h'⟩
  · rcases h' with ⟨_, _, _, _, _, h'⟩ | ⟨_, _, h'⟩ | ⟨_, _, h'⟩ | ⟨_, _, h'⟩ | ⟨_, _, h'⟩ <;> exact hm _ h'
  · exact hm _ h'

theorem ready_read (hp : p.hostReads = true) (h : y.block.res ≠ []) : y.Ready p .read := by
  refine ⟨.popRes, by simp [Partners.next, hp], ?_⟩
  obtain ⟨w, q, e⟩ := List.exists_cons_of_ne_nil h
  rw [move_popRes.mpr ⟨w, q, e, rfl⟩]; rfl

theorem ready_pop (hp : p.consumerPops = true) (h : y.block.pulse ≠ []) : y.Ready p .pop := by
  refine ⟨.popPulse, by simp [Partners.next, hp], ?_⟩
  obtain ⟨w, q, e⟩ := List.exists_cons_of_ne_nil h
  rw [move_popPulse.mpr ⟨w, q, e, rfl⟩]; rfl

theorem ready_write (hp : y.pushed <+: p.program) (h : ¬ y.AllWritten p)
    (hc : y.block.cmd.length < hw.cmdDepth) : y.Ready p .write := by
  obtain ⟨r, e⟩ := hp
  have hr : r ≠ [] := by rintro rfl; exact h (by rw [Sys.AllWritten, ← e, List.append_nil])
  obtain ⟨w, q, rfl⟩ := List.exists_cons_of_ne_nil hr
  refine ⟨.push w, by simp [Partners.next, ← e], ?_⟩
  rw [move_push.mpr ⟨_, chanPush_of_room ((hasRoom_iff hw_cmdDepth_pos _).mpr hc) w, rfl⟩]; rfl

/-- The word the host writes next is the next one of its program. -/
theorem next_write {w : Word} (h : p.next y .write = some (.push w)) (hp : y.pushed <+: p.program) :
    y.pushed ++ [w] <+: p.program ∧ y.pushed.length < p.program.length := by
  obtain ⟨r, e⟩ := hp
  simp only [Partners.next, ← e, Option.map_eq_some_iff] at h
  obtain ⟨w', h, h2⟩ := h
  cases h2
  rw [List.getElem?_append_right (by simp)] at h
  cases r with
  | nil => simp at h
  | cons a r => simp at h; subst h; exact ⟨⟨r, by rw [← e]; simp⟩, by rw [← e]; simp⟩

/-- The work left to do: every word to be written, word to be taken, pulse to be pushed and item to be popped
counts, each more than all that it can turn into. -/
def Sys.work (p : Partners) (y : Sys) : Nat :=
  50 * (p.program.length - y.pushed.length) + 49 * y.block.cmd.length + y.block.res.length +
    2 * y.block.emit.toNat + y.block.pulse.length

/-- Every move these partners make uses up work, but for a STATUS read, which touches nothing. -/
theorem work_lt {m : Move} (hle : y.block.emit ≤ 24) (ha : p.allows y m) (hp : y.pushed <+: p.program)
    (h : y.move m = some z) :
    z.pushed <+: p.program ∧
      (z.work p < y.work p ∨ m = .readStatus ∧ z.block = y.block ∧ z.pushed = y.pushed) := by
  cases m with
  | push w =>
    obtain ⟨a, b⟩ := next_write ha hp
    obtain ⟨q, hq, rfl⟩ := move_push.mp h
    obtain ⟨_, rfl⟩ := chanPush_eq_some.mp hq
    refine ⟨a, .inl ?_⟩
    simp only [Sys.work, List.length_append, List.length_singleton]; omega
  | popRes =>
    obtain ⟨w, q, hq, rfl⟩ := move_popRes.mp h
    exact ⟨hp, .inl (by simp only [Sys.work, hq, List.length_cons]; omega)⟩
  | popPulse =>
    obtain ⟨w, q, hq, rfl⟩ := move_popPulse.mp h
    exact ⟨hp, .inl (by simp only [Sys.work, hq, List.length_cons]; omega)⟩
  | readStatus => obtain rfl := move_readStatus.mp h; exact ⟨hp, .inr ⟨rfl, rfl, rfl⟩⟩
  | reset sh => exact ha.elim
  | block =>
    obtain ⟨hb, s, hs, rfl⟩ := move_block.mp h
    refine ⟨hp, .inl ?_⟩
    rcases block_cases hb hle with ⟨w, rest, h0, hc, _, h'⟩ | ⟨h0, _, _, h'⟩
    · have e0 : y.block.emit.toNat = 0 := by rw [h0]; rfl
      rcases h' with ⟨_, _, _, _, _, h'⟩ | ⟨_, _, h'⟩ | ⟨_, _, h'⟩ | ⟨_, _, h'⟩ | ⟨_, _, h'⟩ <;>
        rw [hs] at h' <;> cases h' <;>
        simp only [Sys.work, hc, List.length_cons, List.length_append, List.length_nil, e0,
          show (24 : BitVec 5).toNat = 24 from rfl] <;> omega
    · rw [hs] at h'; cases h'
      have := emit_toNat_pred h0
      simp only [Sys.work, List.length_append, List.length_singleton]; omega

end Sys2Proof.Machine
end

