-- ==== Sys2Proof/Tests/Slice0.lean ====
section
/-! SUPPORT. Tests on fixed values, with results from the spec's examples and vectors, and one witness for
the hypotheses of each statement that has some. -/

namespace Sys2Proof.Machine.Tests

/-! ### Ill-formed terms are refused (WellFormed, R9) -/

theorem test_wf_refuses_hsv2rgb_as_reserved : (Instr.reserved 0x01000000).wf = false := by decide
theorem test_wf_refuses_encode_as_reserved : (Instr.reserved 0x02FFFFFF).wf = false := by decide
theorem test_wf_refuses_encodeMany_as_reserved : (Instr.reserved 0x03000002).wf = false := by decide
theorem test_wf_admits_reserved : (Instr.reserved 0x04123456).wf = true := by decide
theorem test_fits_refuses_data_when_closed : (Instr.data ⟨1, 2, 3⟩).fits 0 = false := by decide
theorem test_fits_refuses_operation_when_open : (Instr.hsv2rgb 0 255 255).fits 1 = false := by decide
theorem test_config_refuses_zero_duration :
    ({ Params.someWf with t0h := 0 } : Params).wf = false := by decide
theorem test_config_refuses_equal_pairs :
    ({ Params.someWf with t1h := 1 } : Params).wf = false := by decide
theorem test_config_refuses_zero_gap :
    ({ Params.someWf with tResetMin := 0 } : Params).wf = false := by decide
theorem test_config_refuses_zero_depth :
    ({ Params.someWf with resDepth := 0 } : Params).wf = false := by decide

/-! ### Words written out bit by bit from R49, R50, R53 -/

/-- R49, R55: `OOOOOOOO AAAAAAAA BBBBBBBB CCCCCCCC` with h = 0x55, s = 0xF0, v = 0x0F. -/
theorem test_decode_hsv2rgb :
    decode 0 0b00000001_01010101_11110000_00001111 = .hsv2rgb 0x55 0xF0 0x0F := by decide

/-- R56, R82's example `ENCODE 0x12, 0x34, 0x56`. -/
theorem test_decode_encode :
    decode 0 0b00000010_00010010_00110100_01010110 = .encode ⟨0x12, 0x34, 0x56⟩ := by decide

/-- R50, R86's example `ENCODE_MANY 2`. -/
theorem test_decode_encodeMany :
    decode 0 0b00000011_00000000_00000000_00000010 = .encodeMany 2 := by decide

/-- R53: `XXXXXXXX RRRRRRRR GGGGGGGG BBBBBBBB` with a top byte that is ignored. -/
theorem test_decode_data :
    decode 2 0b11111111_00010010_00110100_01010110 = .data ⟨0x12, 0x34, 0x56⟩ := by decide

/-- R59: the reserved opcodes on both sides of the map. -/
theorem test_decode_reserved :
    decode 0 0x00FF0000 = .reserved 0x00FF0000 ∧ decode 0 0x04000000 = .reserved 0x04000000 ∧
    decode 0 0xFFFFFFFF = .reserved 0xFFFFFFFF := by decide

/-- R61: the words of the spec's programs. -/
theorem test_encode_words :
    encode (.hsv2rgb 200 0 77) = 0x01C8004D ∧ encode (.encode ⟨128, 1, 1⟩) = 0x02800101 ∧
    encode (.encodeMany 16777215) = 0x03FFFFFF ∧ encode (.data ⟨1, 2, 3⟩) = 0x00010203 := by decide

/-- R119, program P4: an operation word inside an open count is a colour, the surplus word is reserved. -/
theorem test_stream_open_count :
    decodeStream 0 [0x03000002, 0x00010203, 0x0100FFFF, 0x00040506] =
      [.encodeMany 2, .data ⟨1, 2, 3⟩, .data ⟨0, 255, 255⟩, .reserved 0x00040506] := by decide

/-! ### One step on small states (95_test_vectors.md) -/

/-- A small state: after reset but for COLLECT, EMIT and CMD. -/
def small (collect : Count) (emit : BitVec 5) (cmd : List Word) : State :=
  { State.reset with collect := collect, emit := emit, cmd := cmd }

/-- Family 1, row S1: `HSV2RGB 0, 255, 255` pushes `0x00FF0000`. -/
theorem test_step_hsv2rgb :
    step (small 0 0 [0x0100FFFF, 7]) = .next { State.reset with cmd := [7], res := [0x00FF0000] } := rfl

/-- Family 2: `ENCODE 0x12, 0x34, 0x56` sets SHIFT to `0x341256` and EMIT to 24. -/
theorem test_step_encode :
    step (small 0 0 [0x02123456]) = .next { State.reset with shift := 0x341256, emit := 24 } := rfl

/-- Family 3: `ENCODE_MANY` with the largest count. -/
theorem test_step_encodeMany :
    step (small 0 0 [0x03FFFFFF]) = .next { State.reset with collect := 0xFFFFFF } := rfl

/-- Family 3: the NOP of R62 takes its word and does nothing. -/
theorem test_step_nop : step (small 0 0 [0x03000000]) = .next State.reset := rfl

/-- R87's example: red with COLLECT = 2. -/
theorem test_step_data :
    step (small 2 0 [0x00FF0000]) =
      .next { State.reset with shift := 0x00FF00, emit := 24, collect := 1 } := rfl

/-- Family 4: a word with the HSV2RGB opcode, taken as data, is a colour and not an operation. -/
theorem test_step_data_with_opcode :
    step (small 3 0 [0x0100FFFF]) =
      .next { State.reset with shift := 0xFF00FF, emit := 24, collect := 2 } := rfl

/-- Family 4: a reserved word sets ILL and nothing else. -/
theorem test_step_reserved :
    step (small 0 0 [0x7F000000]) = .next { State.reset with ill := true } := rfl

/-- R90 and the EMIT order check of family 2: the third EMIT step of `(18, 52, 86)` pushes P1. -/
theorem test_step_emit :
    step { State.reset with shift := 0x341256, emit := 22 } =
      .next { State.reset with shift := 0x341256, emit := 21, pulse := [hw.p1] } := rfl

/-- R90: the 24th pushes P0, for `SHIFT[0]`. -/
theorem test_step_last_emit :
    step { State.reset with shift := 0x341256, emit := 1 } =
      .next { State.reset with shift := 0x341256, emit := 0, pulse := [hw.p0] } := rfl

/-- R112: after reset the block takes no step. -/
theorem test_step_reset_waits : step State.reset = .next State.reset := rfl

/-- R82's example: the bits of `(0x12, 0x34, 0x56)` on the wire, with `1` for P1 and `0` for P0. -/
theorem test_encode_pulses (c : Config) :
    encodePulses c ⟨0x12, 0x34, 0x56⟩ =
      [false, false, true, true, false, true, false, false, false, false, false, true, false, false, true,
       false, false, true, false, true, false, true, true, false].map (pulseOf c) := rfl

/-- Family 5: rows of the STATUS table. -/
theorem test_status :
    status (small 0 0 []) = 0 ∧ status { small 0 0 [] with ill := true } = 2 ∧ status (small 0 1 []) = 1 ∧
    status { small 0 24 [] with ill := true } = 3 ∧ status (small 1 0 []) = 5 ∧
    status (small 1 24 []) = 5 ∧ status { small 1 7 [] with ill := true } = 7 := by decide

/-- Family 1: one row of each region, and the grey and black rows. -/
theorem test_hsv_vectors :
    hsvReference 30 200 100 = ⟨100, 76, 21⟩ ∧ hsvReference 85 255 255 = ⟨3, 255, 0⟩ ∧
    hsvReference 128 128 128 = ⟨63, 128, 127⟩ ∧ hsvReference 171 255 255 = ⟨0, 3, 255⟩ ∧
    hsvReference 214 255 255 = ⟨252, 0, 255⟩ ∧ hsvReference 255 1 255 = ⟨255, 253, 254⟩ ∧
    hsvReference 200 0 77 = ⟨77, 77, 77⟩ ∧ hsvReference 123 45 0 = ⟨0, 0, 0⟩ := by decide

/-- Family 6: reset in a busy state, with unread results and untaken words. -/
theorem test_reset :
    ((Sys.start 0).move (.reset 5)).map Sys.block = some { State.reset with shift := 5 } := rfl

/-! ### What the host reads of a table word -/

theorem test_table_words :
    decodeTableWord 32 0x0100FFFF = some (.hsv2rgb 0 255 255) ∧
    decodeTableWord 32 0x80000000 = some (.reserved 0x80000000) ∧
    decodeTableWord 8 0x02 = some (.reserved 0x02) ∧ decodeTableWord 40 0 = none := by decide

theorem test_placed_word_runs :
    step (State.reset.withFetchWord 32 0x02FFFFFF) =
      .next { State.reset with shift := 0xFFFFFF, emit := 24 } := rfl

/-! ### The assembler (programs P2, P4, P6) -/

/-- P2: a FRAME of three colours, from its text. -/
theorem test_text_frame :
    assembleText ['F', 'R', 'A', 'M', 'E', ' ', '(', '2', '5', '5', ',', '0', ',', ' ', '0', ')', ',', '(',
      '0', ',', '0', 'x', 'f', 'F', ',', '0', ')', ' ', ';', 'x'] =
      some [0x03000002, 0x00FF0000, 0x0000FF00] := by decide

/-- P6: NOP, a blank line with a comment, and an operation. -/
theorem test_text_lines :
    assembleText ['N', 'O', 'P', '\n', ' ', ';', '\n', 'H', 'S', 'V', '2', 'R', 'G', 'B', ' ', '2', '0', '0',
      ',', '0', ',', '7', '7'] = some [0x03000000, 0x01C8004D] := by decide

/-- P4: an operation in an open count is assembled, and `.word` gives the surplus word. -/
theorem test_assemble_open_count :
    assemble [.encodeMany 2, .color 1 2 3, .hsv2rgb 0 255 255, .word 0x00040506] =
      some [0x03000002, 0x00010203, 0x0100FFFF, 0x00040506] := by decide

/-- P4: in its place a `.color` is refused. -/
theorem test_assemble_refuses_uncovered_color :
    assemble [.encodeMany 2, .color 1 2 3, .hsv2rgb 0 255 255, .color 4 5 6] = none := by decide

/-! ### The host's duty (R46, R119) -/

/-- P3, with a reserved word outside a count, and a frame of two colours keep the duty. -/
theorem test_host_duty_met :
    hostDutyMet [.reserved 0x7F000000, .encodeMany 0, .encode ⟨0, 0, 1⟩] = true ∧
    hostDutyMet [.encodeMany 2, .data ⟨1, 2, 3⟩, .data ⟨4, 5, 6⟩] = true := by decide

/-- P4 as its host means it, P5, and a surplus colour do not. -/
theorem test_host_duty_breached :
    hostDutyMet [.encodeMany 2, .data ⟨1, 2, 3⟩, .hsv2rgb 0 255 255, .data ⟨4, 5, 6⟩] = false ∧
    hostDutyMet [.encodeMany 2, .data ⟨9, 9, 9⟩] = false ∧
    hostDutyMet [.encodeMany 1, .data ⟨1, 2, 3⟩, .data ⟨4, 5, 6⟩] = false := by decide

/-! ### The consumer's duties (R47) -/

/-- A well-formed configuration with the reference function. -/
def someConfig : Config := { toParams := Params.someWf, hsvImpl := hsvReference }

/-- A colour's pulses as transmitted, with no idle time but `last` after the last pulse. -/
def sentColor (c : Config) (x : Color) (last : Nat) : List SentPulse :=
  ((encodePulses c x).dropLast.map fun p => ⟨p, 0⟩) ++ ((encodePulses c x).drop 23).map fun p => ⟨p, last⟩

/-- Red and green, each an ENCODE_MANY of its own, or the two colours of one. -/
def twoFrames : List Frame := [⟨1, [⟨255, 0, 0⟩]⟩, ⟨1, [⟨0, 255, 0⟩]⟩]
def oneFrame : List Frame := [⟨2, [⟨255, 0, 0⟩, ⟨0, 255, 0⟩]⟩]
def twoSent : List Pulse := encodeManyPulses someConfig [⟨255, 0, 0⟩, ⟨0, 255, 0⟩]

/-- R120: two frames with a latch gap after each meet the duties; a lead that is too short does not. -/
theorem test_duties_two_frames :
    let a := sentColor someConfig ⟨255, 0, 0⟩ 280000
    let b := sentColor someConfig ⟨0, 255, 0⟩ 280000
    Transmission.dutiesMet someConfig 5000 twoFrames twoSent ⟨280000, [a, b]⟩ = true ∧
    Transmission.dutiesMet someConfig 5000 twoFrames twoSent ⟨279999, [a, b]⟩ = false := by decide

/-- R120: the two frames sent as one, or with too short a gap between them, do not. -/
theorem test_duties_merged_frames :
    let a := sentColor someConfig ⟨255, 0, 0⟩ 0
    let b := sentColor someConfig ⟨0, 255, 0⟩ 280000
    Transmission.dutiesMet someConfig 5000 twoFrames twoSent ⟨280000, [a ++ b]⟩ = false ∧
    Transmission.dutiesMet someConfig 5000 twoFrames twoSent ⟨280000, [a, b]⟩ = false := by decide

/-- R122: one frame split by a long gap does not meet the duties, whether or not the cut is stated. -/
theorem test_duties_split_frame :
    let a := sentColor someConfig ⟨255, 0, 0⟩ 280000
    let b := sentColor someConfig ⟨0, 255, 0⟩ 280000
    Transmission.dutiesMet someConfig 5000 oneFrame twoSent ⟨280000, [a, b]⟩ = false ∧
    Transmission.dutiesMet someConfig 5000 oneFrame twoSent ⟨280000, [a ++ b]⟩ = false := by decide

/-- R85: the frames of two ENCODE_MANYs with ENCODEs between; the host may cut the ENCODEs, no other cut is
allowed. -/
theorem test_frames_of_words :
    let gs := frameGroups (decodeStream 0 [0x03000001, 0x00000001, 0x02000002, 0x03000000, 0x02000003,
      0x03000001, 0x00000004])
    gs = [.many ⟨1, [⟨0, 0, 1⟩]⟩, .each [⟨0, 0, 2⟩, ⟨0, 0, 3⟩], .many ⟨1, [⟨0, 0, 4⟩]⟩] ∧
    framesAllowed gs [⟨1, [⟨0, 0, 1⟩]⟩, ⟨1, [⟨0, 0, 2⟩]⟩, ⟨1, [⟨0, 0, 3⟩]⟩, ⟨1, [⟨0, 0, 4⟩]⟩] = true ∧
    framesAllowed gs [⟨1, [⟨0, 0, 1⟩]⟩, ⟨2, [⟨0, 0, 2⟩, ⟨0, 0, 3⟩]⟩, ⟨1, [⟨0, 0, 4⟩]⟩] = true ∧
    framesAllowed gs [⟨3, [⟨0, 0, 1⟩, ⟨0, 0, 2⟩, ⟨0, 0, 3⟩]⟩, ⟨1, [⟨0, 0, 4⟩]⟩] = false := by decide

/-- R47 (e): 3 pulses with CHUNK_CAP 2, and with CHUNK_CAP 0, which R9 does not exclude (log 22). -/
theorem test_chunks :
    chunksTaken { Params.someWf with chunkCap := 2 } [⟨1, 1⟩, ⟨2, 1⟩, ⟨1, 1⟩] =
      [[⟨1, 1⟩, ⟨2, 1⟩], [⟨1, 1⟩]] ∧
    chunksTaken { Params.someWf with chunkCap := 0 } [⟨1, 1⟩, ⟨2, 1⟩] = [[⟨1, 1⟩], [⟨2, 1⟩]] := by decide

theorem test_line : SentPulse.line ⟨⟨2, 1⟩, 7⟩ = [.high 2, .low 1, .low 7] := rfl

/-! ### Witnesses: the hypotheses of each statement that has some are met -/

theorem witness_DecodeReadsFieldsByMode :
    (1 : Count) ≠ 0 ∧ (0 : Count) = 0 ∧ (0x01FFFFFF : Word).toNat / 2 ^ 24 = 1 ∧
    (0x02000000 : Word).toNat / 2 ^ 24 = 2 ∧ (0x03FFFFFF : Word).toNat / 2 ^ 24 = 3 ∧
    (∀ w ∈ [(0x00FFFFFF : Word), 0x04000000, 0xFFFFFFFF],
      w.toNat / 2 ^ 24 ≠ 1 ∧ w.toNat / 2 ^ 24 ≠ 2 ∧ w.toNat / 2 ^ 24 ≠ 3) := by simp

theorem witness_DataWordIgnoresTopByte : (0xFFFFFF : Count) ≠ 0 := by decide

theorem witness_DecodeOfEncode :
    ∀ p ∈ [(Instr.hsv2rgb 0 255 1, (0 : Count)), (.encode ⟨1, 2, 3⟩, 0), (.encodeMany 0xFFFFFF, 0),
      (.data ⟨255, 0, 1⟩, 1), (.reserved 0, 0), (.reserved 0x04000000, 0), (.reserved 0xFFFFFFFF, 0)],
      p.1.wf = true ∧ p.1.fits p.2 = true := by decide

theorem witness_EncodeOfDecode : (0 : Count) = 0 ∧ (1 : Count) ≠ 0 := by decide

theorem witness_ResultWordReadsAsOperand : (1 : Count) ≠ 0 := by decide

theorem witness_OpenCountTakesExactlyItsWords :
    ([] : List Word).length = (0 : Count).toNat ∧ [(1 : Word), 2].length = (2 : Count).toNat := by decide

theorem witness_StepRunsDecodedWord :
    ((small 0 0 [7]).emit = 0 ∧ (small 0 0 [7]).cmd = 7 :: []) ∧ (small 0 1 []).emit ≠ 0 ∧
    ((small 0 0 []).emit = 0 ∧ (small 0 0 []).cmd = []) := by decide

theorem witness_PlacedWordRunsNext : 0 ≤ 32 ∧ 32 ≤ 32 := by decide

theorem witness_Hsv2rgbPushesItsColor :
    let s := small 0 0 [0x0100FFFF]
    s.collect = 0 ∧ s.emit = 0 ∧ s.cmd = 0x0100FFFF :: [] ∧ s.res.length < hw.resDepth :=
  ⟨rfl, rfl, rfl, hw_resDepth_pos⟩

/-- A state in which RES is full, whatever its capacity is. -/
def fullRes : State := { small 0 0 [0x0100FFFF] with res := List.replicate hw.resDepth 0 }

theorem witness_Hsv2rgbWaitsOnFullRes : hw.resDepth ≤ fullRes.res.length := by simp [fullRes]

theorem witness_EncodeLoadsItsColor :
    let s := small 0 0 [0x02123456, 1]
    s.collect = 0 ∧ s.emit = 0 ∧ s.cmd = 0x02123456 :: [1] := by decide

theorem witness_EncodeManyOpensItsCount :
    let s := small 0 0 [0x03000002]
    s.collect = 0 ∧ s.emit = 0 ∧ s.cmd = 0x03000002 :: [] := by decide

theorem witness_DataLoadsItsColorAndCountsDown :
    (small 1 0 [7]).collect ≠ 0 ∧ (small 0xFFFFFF 0 [7]).collect ≠ 0 ∧
    (∀ c, (small c 0 [7]).emit = 0 ∧ (small c 0 [7]).cmd = 7 :: []) :=
  ⟨by decide, by decide, fun _ => ⟨rfl, rfl⟩⟩

theorem witness_ReservedSetsOnlyIll :
    let s := small 0 0 [0xFF000000]
    s.collect = 0 ∧ s.emit = 0 ∧ s.cmd = 0xFF000000 :: [] := by decide

theorem witness_InstructionWaitsUntilTaken :
    (small 0 1 [7]).emit ≠ 0 ∧ (small 0 0 []).cmd = [] ∧
    (Instr.data ⟨1, 2, 3⟩).fits (small 0 0 [7]).collect = false := by decide

theorem witness_InstructionFrame :
    (∀ h sat v, Instr.encode ⟨1, 2, 3⟩ ≠ .hsv2rgb h sat v) ∧
    ((∀ x, Instr.reserved 0 ≠ .encode x) ∧ (∀ x, Instr.reserved 0 ≠ .data x)) ∧
    ((∀ n, Instr.encode ⟨1, 2, 3⟩ ≠ .encodeMany n) ∧ (∀ x, Instr.encode ⟨1, 2, 3⟩ ≠ .data x)) ∧
    (∀ w, Instr.encodeMany 1 ≠ .reserved w) := by simp

theorem witness_EmitStepPushesNextPulse :
    ∀ e ∈ [(1 : BitVec 5), 24], (small 0 e []).emit ≠ 0 ∧ (small 0 e []).emit.toNat ≤ 24 ∧
      (small 0 e []).pulse.length < hw.pulseDepth := by
  intro e he
  have hd : 0 < hw.pulseDepth := hw_pulseDepth_pos
  simp only [List.mem_cons, List.not_mem_nil, or_false] at he
  rcases he with rfl | rfl
  · exact ⟨by decide, by decide, hd⟩
  · exact ⟨by decide, by decide, hd⟩

/-- A state in which PULSE is full, whatever its capacity is. -/
def fullPulse : State := { small 0 24 [] with pulse := List.replicate hw.pulseDepth hw.p0 }

theorem witness_EmitStepWaitsOrStops :
    (fullPulse.emit ≠ 0 ∧ fullPulse.emit.toNat ≤ 24 ∧ hw.pulseDepth ≤ fullPulse.pulse.length) ∧
    24 < (small 0 25 []).emit.toNat ∧ 24 < (small 0 31 []).emit.toNat :=
  ⟨⟨fun h => absurd (congrArg BitVec.toNat h) (by simp [fullPulse, small]), Nat.le_refl 24,
    by simp [fullPulse]⟩, by decide, by decide⟩

theorem witness_AtMostOneBlockStepEnabled :
    (small 0 0 []).emit.toNat ≤ 24 ∧ blockEnabled (small 0 0 []) = false := by decide

/-- The system with this state and no history. -/
def sysOf (s : State) : Sys := { Sys.start 0 with block := s }

theorem witness_BlockTakesAWordOrPushesAPulse :
    (∃ z, (sysOf (small 0 0 [0x02123456])).block.emit.toNat ≤ 24 ∧
      (sysOf (small 0 0 [0x02123456])).move .block = some z ∧
      (sysOf (small 0 0 [0x02123456])).block.emit = 0) ∧
    (∃ z, (sysOf (small 0 24 [])).block.emit.toNat ≤ 24 ∧ (sysOf (small 0 24 [])).move .block = some z ∧
      (sysOf (small 0 24 [])).block.emit ≠ 0) :=
  ⟨⟨_, by decide, rfl, rfl⟩, ⟨_, by decide, rfl, by decide⟩⟩

/-- A small state with the invariants. -/
theorem small_inv (c : Count) (e : BitVec 5) (h : e.toNat ≤ 24) : (small c e []).Inv where
  emit_le := h
  collect_le := by have := c.isLt; simp [small]; omega
  pulses := by simp [small, State.reset]
  cmd_le := by simp [small]
  res_le := by simp [small, State.reset]
  pulse_le := by simp [small, State.reset]

theorem witness_StepKeepsStateInvariants :
    (small 3 24 []).Inv ∧ ∃ t, step (small 3 24 []) = .next t := ⟨small_inv 3 24 (by decide), _, rfl⟩

theorem witness_StepNeverStops : (small 3 24 []).Inv := small_inv 3 24 (by decide)

/-- The system after a reset has the invariants. -/
theorem start_inv (sh : Wire) : (Sys.start sh).Inv where
  block := { small_inv 0 0 (by decide) with }
  stream := rfl
  words := ⟨rfl, rfl, rfl, rfl, rfl⟩
  shift := fun h => absurd rfl h

theorem witness_EveryMoveKeepsSystemInvariants :
    (Sys.start 9).Inv ∧ ∃ z, (Sys.start 9).move (.push 0x02123456) = some z := ⟨start_inv 9, _, rfl⟩

/-- A system that is reached in five moves: one NOP and one colour taken, one pulse popped. -/
theorem reached :
    ∃ y, Sys.run [.push 0x03000000, .block, .push 0x02123456, .block, .block, .popPulse] (Sys.start 5) = some y ∧
      y.sent = [hw.p0] ∧ y.block.emit = 23 := ⟨_, rfl, rfl, rfl⟩

theorem witness_StreamLawHoldsWhenReachable : ∃ y : Sys, y.Reachable ∧ y.sent = [hw.p0] :=
  let ⟨y, h, hs, _⟩ := reached
  ⟨y, ⟨5, _, h⟩, hs⟩

theorem witness_OutputsFollowFromWordsTaken : ∃ y : Sys, y.Reachable ∧ y.block.emit = 23 :=
  let ⟨y, h, _, he⟩ := reached
  ⟨y, ⟨5, _, h⟩, he⟩

/-- Partners whose host writes these words and that take every item. -/
def eager (ws : List Word) : Partners := ⟨ws, true, true⟩

/-- A final system: one HSV2RGB and one reserved word taken, the result unread. -/
theorem reached_final :
    ∃ y, Sys.run [.push 0x0100FFFF, .block, .push 0x7F000000, .block] (Sys.start 5) = some y ∧
      y.Final (eager [0x0100FFFF, 0x7F000000]) ∧ busy y.block = false ∧ y.block.res = [0x00FF0000] :=
  ⟨_, rfl, ⟨rfl, rfl, rfl, rfl, rfl⟩, rfl, rfl⟩

/-- R125: a state in which the host still has a word to write is not final, `State.reset` among them. -/
theorem test_reset_is_not_final : ¬ (Sys.start 0).Final (eager [0x03000000]) := by
  intro h
  have hw : ([] : List Word) = [0x03000000] := h.1
  simp at hw

/-- Program P5, drained: stuck, not final. -/
theorem test_missing_data_is_stuck :
    ∃ y, Sys.run ([.push 0x03000002, .block, .push 0x00090909, .block] ++ drainMoves 24) (Sys.start 0) = some y ∧
      y.StuckOnData (eager [0x03000002, 0x00090909]) ∧ y.block.collect = 1 ∧ y.block.shift = 0x090909 ∧
      status y.block = 5 := ⟨_, rfl, ⟨rfl, rfl, by decide, rfl⟩, rfl, rfl, rfl⟩

theorem witness_FinalObservationIsDetermined : ∃ (p : Partners) (y : Sys), y.Reachable ∧ y.Final p :=
  let ⟨y, h, hf, _⟩ := reached_final
  ⟨_, y, ⟨5, _, h⟩, hf⟩

theorem witness_NotBusyMeansHandedOver :
    ∃ y : Sys, y.Reachable ∧ busy y.block = false ∧ y.block.cmd = [] :=
  let ⟨y, h, hf, hb, _⟩ := reached_final
  ⟨y, ⟨5, _, h⟩, hb, hf.2.1⟩

theorem witness_DrainDeliversPendingPulses :
    (sysOf (small 2 24 [7])).block.emit.toNat ≤ 24 ∧ (sysOf (small 2 24 [7])).block.pulse = [] := by decide

theorem witness_EncodeManyDeliversAllColors :
    [(⟨1, 2, 3⟩ : Color), ⟨4, 5, 6⟩].length < 2 ^ 24 ∧ (sysOf (small 0 0 [])).block.collect = 0 ∧
    (sysOf (small 0 0 [])).block.emit = 0 ∧ (sysOf (small 0 0 [])).block.cmd = [] ∧
    (sysOf (small 0 0 [])).block.pulse = [] := by decide

theorem witness_EncodeEachDeliversTheSame :
    (sysOf (small 0 0 [])).block.collect = 0 ∧ (sysOf (small 0 0 [])).block.emit = 0 ∧
    (sysOf (small 0 0 [])).block.cmd = [] ∧ (sysOf (small 0 0 [])).block.pulse = [] := by decide

theorem witness_StatusBitsAreComputed : 3 ≤ 3 ∧ 3 ≤ 31 := by decide

theorem witness_PartnerMovesTouchOneChannel :
    (∃ z, (Sys.start 0).move (.push 7) = some z) ∧
    (∃ z, (sysOf { State.reset with res := [7] }).move .popRes = some z) ∧
    (∃ z, (sysOf { State.reset with pulse := [hw.p1] }).move .popPulse = some z) ∧
    (∃ z, (Sys.start 0).move .readStatus = some z) := ⟨⟨_, rfl⟩, ⟨_, rfl⟩, ⟨_, rfl⟩, ⟨_, rfl⟩⟩

theorem witness_IllIsStickyUntilReset :
    (∀ sh, Move.block ≠ .reset sh) ∧
    (∃ z, (sysOf { small 0 0 [0x03000000] with ill := true }).move .block = some z ∧
      (sysOf { small 0 0 [0x03000000] with ill := true }).block.emit.toNat ≤ 24) ∧
    (∃ z, (sysOf (small 0 0 [0x7F000000])).move .block = some z ∧
      (sysOf (small 0 0 [0x7F000000])).block.emit.toNat ≤ 24 ∧
      (sysOf (small 0 0 [0x7F000000])).block.ill = false ∧ z.block.ill = true) :=
  ⟨by simp, ⟨_, rfl, by decide⟩, ⟨_, rfl, by decide, rfl, rfl⟩⟩

theorem witness_ResetValueOfShiftIsNeverObserved :
    ((Sys.start 5).SameButShift (Sys.start 6) ∧ ∃ y, (Sys.start 5).move (.push 7) = some y) ∧
    ∃ y, Sys.run [.push 0x03000000, .block, .readStatus] (Sys.start 5) = some y :=
  ⟨⟨⟨⟨rfl, fun h => absurd rfl h⟩, rfl⟩, _, rfl⟩, _, rfl⟩

theorem fullRes_awaits : fullRes.AwaitsRes := ⟨rfl, ⟨0, 255, 255, rfl⟩, by simp [fullRes]⟩

theorem fullPulse_awaits : fullPulse.AwaitsPulse :=
  ⟨fun h => absurd (congrArg BitVec.toNat h) (by simp [fullPulse, small]), by simp [fullPulse]⟩

theorem witness_WaitingStatesAreClassified :
    fullRes.AwaitsRes ∧ fullPulse.AwaitsPulse ∧ (∃ y : Sys, y.Final (eager [0x0100FFFF, 0x7F000000])) ∧
    (∃ (p : Partners) (y : Sys), y.Stuck p) ∧
    (Sys.start 0).block.emit.toNat ≤ 24 ∧ (Sys.start 0).pushed <+: [] ∧ (Sys.start 0).Halted (eager []) := by
  refine ⟨fullRes_awaits, fullPulse_awaits, ?_, ?_, by decide, List.prefix_refl _, ?_⟩
  · obtain ⟨y, _, h, _⟩ := reached_final
    exact ⟨y, h⟩
  · exact ⟨⟨[], false, true⟩, sysOf fullRes, .inr (.inl ⟨rfl, fullRes_awaits, rfl⟩)⟩
  · rintro k ⟨m, hm, hs⟩
    cases k <;> cases hm <;> cases hs

theorem witness_UnreadResultsBlockLaterWords :
    (sysOf fullRes).block.AwaitsRes ∧ (∃ z, Sys.run [.readStatus] (sysOf fullRes) = some z) ∧
    (∀ m ∈ [Move.readStatus], m ≠ .popRes ∧ ∀ sh, m ≠ .reset sh) :=
  ⟨fullRes_awaits, ⟨_, rfl⟩, by simp⟩

theorem witness_EncodePulseIsBitOfWireWord : 0 < 24 ∧ 23 < 24 := by decide

theorem witness_PulseIndexMapsToChannelBit :
    let x : Color := ⟨1, 2, 3⟩
    [x.g, x.r, x.b][0 / 8]? = some 2 ∧ [x.g, x.r, x.b][7 / 8]? = some 2 ∧
    [x.g, x.r, x.b][8 / 8]? = some 1 ∧ [x.g, x.r, x.b][15 / 8]? = some 1 ∧
    [x.g, x.r, x.b][16 / 8]? = some 3 ∧ [x.g, x.r, x.b][23 / 8]? = some 3 := by decide

theorem witness_EncodeManyConcatenatesInOrder :
    [(⟨1, 2, 3⟩ : Color)][0]? = some ⟨1, 2, 3⟩ ∧ 23 < 24 := by decide

theorem witness_DecodeOfPulsesGivesColorBack : someConfig.wf = true := by decide

theorem witness_ChunkingKeepsTheSequence : 0 < 1 ∧ [(⟨1, 2⟩ : Pulse)].length ≤ 1 ∧ 0 < Params.someWf.chunkCap := by decide

/-- Two frames of which the second is short, with a reserved word between. -/
theorem witness_FramesPartitionTheColors :
    manyFrames (decodeStream 0 [0x03000001, 0x00FF0000, 0x7F000000, 0x03000002, 0x00000001]) =
      [⟨1, [⟨255, 0, 0⟩]⟩, ⟨2, [⟨0, 0, 1⟩]⟩] := by decide

/-- Red as transmitted with a latch gap after it. -/
def redSent : List SentPulse := sentColor hw ⟨255, 0, 0⟩ hw.tResetMin

/-- A final system after a frame of one red colour. -/
theorem reached_frame :
    ∃ y, Sys.run ([.push 0x03000001, .block, .push 0x00FF0000, .block] ++ drainMoves 24) (Sys.start 0) = some y ∧
      y.Final (eager [0x03000001, 0x00FF0000]) ∧ y.taken = [0x03000001, 0x00FF0000] ∧
      y.sent = sentPulses [redSent].flatten :=
  ⟨_, rfl, ⟨rfl, rfl, rfl, rfl, rfl⟩, rfl, rfl⟩

theorem red_gap : gapKept hw redSent ⟨1, [⟨255, 0, 0⟩]⟩ = true := by
  have hp : sentPulses redSent = Frame.pulses hw ⟨1, [⟨255, 0, 0⟩]⟩ := rfl
  have hl : redSent.getLast? = some ⟨hw.p0, hw.tResetMin⟩ := rfl
  simp [gapKept, hp, hl]

/-- The transmission of the frame meets the duties. -/
theorem witness_DutiesTransmitTheFrames :
    ∃ (p : Partners) (y : Sys) (frames : List Frame) (t : Transmission),
      y.Reachable ∧ y.Final p ∧ frames ≠ [] ∧ (∀ f ∈ frames, f.whole = true) ∧ y.dutiesMet 1 frames t = true := by
  obtain ⟨y, hy, hf, ht, hs⟩ := reached_frame
  refine ⟨_, y, [⟨1, [⟨255, 0, 0⟩]⟩], ⟨hw.tResetMin, [redSent]⟩, ⟨0, _, hy⟩, hf, by simp, by simp [Frame.whole], ?_⟩
  have hne : redSent ≠ [] := by intro h; cases h
  simp only [Sys.dutiesMet, Sys.framesOf, Transmission.dutiesMet, Bool.and_eq_true]
  refine ⟨by rw [ht]; decide, ⟨⟨⟨?_, ?_⟩, ?_⟩, rfl⟩, ?_⟩
  · rw [hs]; exact decide_eq_true rfl
  · simp [framesCut, hne]
    exact List.prefix_refl (sentPulses redSent)
  · simp [Transmission.gapsKept]
    exact red_gap
  · simp [Transmission.leadKept]

theorem witness_PermittedHsvGivesRedAtHueZero :
    someConfig.hsvPermitted ∧ (small 0 0 [7]).collect = 0 ∧ (small 0 0 [7]).emit = 0 ∧
    (small 0 0 [7]).cmd = 7 :: [] ∧ (small 0 0 [7]).res.length < someConfig.resDepth := by
  refine ⟨?_, by decide, by decide, by decide, by decide⟩
  unfold Config.hsvPermitted
  decide

theorem witness_ReferenceHsvVectors : hw.hsvImpl = hsvReference := rfl

theorem witness_ReferenceRegionsByHue :
    (1 : Byte) ≠ 0 ∧ (0 : Byte).toNat ≤ 42 ∧ (42 : Byte).toNat ≤ 42 ∧
    (∀ h ∈ [(43 : Byte), 85], 43 ≤ h.toNat ∧ h.toNat ≤ 85) ∧
    (∀ h ∈ [(86 : Byte), 128], 86 ≤ h.toNat ∧ h.toNat ≤ 128) ∧
    (∀ h ∈ [(129 : Byte), 171], 129 ≤ h.toNat ∧ h.toNat ≤ 171) ∧
    (∀ h ∈ [(172 : Byte), 214], 172 ≤ h.toNat ∧ h.toNat ≤ 214) ∧
    (∀ h ∈ [(215 : Byte), 255], 215 ≤ h.toNat) := by decide

theorem witness_ChannelsAreFirstInFirstOut :
    1 ≤ 1 ∧ ([] : List Word).length < 1 ∧ 1 ≤ [(7 : Word)].length := by decide

theorem witness_FrameAssemblesToCountAndColors : [(⟨1, 2, 3⟩ : Color)].length < 2 ^ 24 := by decide

/-- One misfit of each kind, a `.color` and a FRAME colour among them, and prefixes that leave no count open. -/
theorem witness_AssemblerRefusesMisfits :
    (∀ l ∈ [AsmLine.hsv2rgb 256 0 0, .encode 0 0 256, .encodeMany 16777216, .color 0 256 0, .word 4294967296,
      .frame [(1, 2, 3), (0, 0, 256)]], l.misfits = true) ∧
    (assemble [] = some [] ∧ collectAfter 0 [] = 0) ∧
    (assemble [.encodeMany 1, .color 1 2 3] = some [0x03000001, 0x00010203] ∧
      collectAfter 0 [0x03000001, 0x00010203] = 0) := by decide

/-- In an open count a `.color` is accepted if it fits, and only then. -/
theorem test_assemble_misfit_color :
    (assemble [.encodeMany 1, .color 255 0 0]).isSome = true ∧ assemble [.encodeMany 1, .color 256 0 0] = none ∧
    assemble [.frame [(0, 0, 256)]] = none := by decide

theorem witness_AssembledOperationsAreNeverIllegal :
    (∀ l ∈ [AsmLine.frame [(1, 2, 3)], .nop], ∀ x, l ≠ .word x) ∧
    ∃ ws, assemble [.frame [(1, 2, 3)], .nop] = some ws :=
  ⟨by simp, [0x03000001, 0x00010203, 0x03000000], by decide⟩

/-- An endless run: the host writes one HSV2RGB word, the block takes it, the host reads the result, and nothing
more happens. -/
def runMoves : Nat → Option Move
  | 0 => some (.push 0x0100FFFF)
  | 1 => some .block
  | 2 => some .popRes
  | _ + 3 => none

def runSys : Nat → Sys
  | 0 => Sys.start 0
  | 1 => { Sys.start 0 with block := small 0 0 [0x0100FFFF], pushed := [0x0100FFFF] }
  | 2 => { Sys.start 0 with block := { State.reset with res := [0x00FF0000] }
                            pushed := [0x0100FFFF], taken := [0x0100FFFF] }
  | _ + 3 => { Sys.start 0 with pushed := [0x0100FFFF], taken := [0x0100FFFF], read := [0x00FF0000] }

theorem witness_FairRunsEnd :
    IsTrace runSys runMoves ∧ Follows (eager [0x0100FFFF]) runSys runMoves ∧
    Fair (eager [0x0100FFFF]) runSys runMoves ∧ (runSys 0).Inv ∧ (runSys 0).pushed <+: [0x0100FFFF] ∧
    collectAfter 0 [0x0100FFFF] = 0 := by
  refine ⟨?_, ?_, ?_, start_inv 0, by simp [runSys, Sys.start], by decide⟩
  · intro n
    match n with
    | 0 => rfl
    | 1 => rfl
    | 2 => rfl
    | _ + 3 => rfl
  · intro n k hk
    match n with
    | 0 => cases hk; rfl
    | 1 => cases hk; exact True.intro
    | 2 => cases hk; rfl
    | _ + 3 => cases hk
  · intro k n
    refine ⟨n + 3, by omega, .inl ?_⟩
    rintro ⟨m, hm, hs⟩
    cases k <;> cases hm <;> cases hs

end Sys2Proof.Machine.Tests
end

section
/-! PROOF. When a configuration is admitted (R9): one equivalence for each of the four conditions, and
admission as their conjunction. -/

namespace Sys2Proof

variable {p : Params}

theorem Params.durationsPositive_iff :
    p.durationsPositive = true ↔ 0 < p.t0h ∧ 0 < p.t0l ∧ 0 < p.t1h ∧ 0 < p.t1l := by
  simp only [Params.durationsPositive, Bool.and_eq_true, decide_eq_true_eq, and_assoc]

theorem Params.pairsDiffer_iff : p.pairsDiffer = true ↔ (p.t0h, p.t0l) ≠ (p.t1h, p.t1l) :=
  decide_eq_true_iff

theorem Params.gapPositive_iff : p.gapPositive = true ↔ 0 < p.tResetMin := decide_eq_true_iff

theorem Params.depthsPositive_iff :
    p.depthsPositive = true ↔ 1 ≤ p.cmdDepth ∧ 1 ≤ p.resDepth ∧ 1 ≤ p.pulseDepth := by
  simp only [Params.depthsPositive, Bool.and_eq_true, decide_eq_true_eq, and_assoc]

theorem Params.wf_iff :
    p.wf = true ↔ p.durationsPositive = true ∧ p.pairsDiffer = true ∧
      p.gapPositive = true ∧ p.depthsPositive = true := by
  simp only [Params.wf, Bool.and_eq_true, and_assoc]

/-- Parameters have a block exactly when they are well-formed (R9, D26). -/
theorem Params.checked_isSome_iff : p.checked.isSome = true ↔ p.wf = true := by
  unfold Params.checked
  split
  case isTrue h => simp only [h, Option.isSome_some]
  case isFalse h => simp only [h, Option.isSome_none, Bool.false_eq_true]

/-- A duration is positive exactly when its number is in the range of R9 condition 1: the type `Dur`
carries the upper bound. -/
theorem dur_pos_iff_in_range {d : Dur} : 0 < d ↔ 0 < d.toNat ∧ d.toNat < 2 ^ 16 :=
  ⟨fun h => ⟨BitVec.lt_def.mp h, d.isLt⟩, fun h => BitVec.lt_def.mpr h.1⟩

end Sys2Proof

open Sys2Proof Sys2Proof.Machine

/-- Settles O54: admission is well-formedness, which is the four conditions of R9, and this block's
parameters carry their well-formedness. -/
theorem onlyWellFormedConfigurationsAdmitted : Obligations.OnlyWellFormedConfigurationsAdmitted := by
  refine ⟨fun p => ?_, Params.checked_isSome_iff.mpr hw_wf⟩
  rw [Params.checked_isSome_iff, Params.wf_iff, Params.durationsPositive_iff, Params.pairsDiffer_iff,
    Params.gapPositive_iff, Params.depthsPositive_iff]
  simp only [dur_pos_iff_in_range]

end

section
/-! PROOF. The decode function read as arithmetic on the word's value (R11, R63), and bits 23:0 of a RES word
read again under another top byte (R57). -/

namespace Sys2Proof

variable (w : Word)

/-- The opcode as a number: the test on it is a test on the word's value. -/
theorem opcOf_eq_iff (o : Byte) : opcOf w = o ↔ w.toNat / 2 ^ 24 = o.toNat := by
  rw [← BitVec.toNat_inj, toNat_opcOf]

theorem fieldA_eq_ofNat : fieldA w = BitVec.ofNat 8 (w.toNat / 2 ^ 16) :=
  BitVec.eq_of_toNat_eq (by rw [toNat_fieldA, BitVec.toNat_ofNat])

theorem fieldB_eq_ofNat : fieldB w = BitVec.ofNat 8 (w.toNat / 2 ^ 8) :=
  BitVec.eq_of_toNat_eq (by rw [toNat_fieldB, BitVec.toNat_ofNat])

theorem fieldC_eq_ofNat : fieldC w = BitVec.ofNat 8 w.toNat :=
  BitVec.eq_of_toNat_eq (by rw [toNat_fieldC, BitVec.toNat_ofNat])

theorem fieldN_eq_ofNat : fieldN w = BitVec.ofNat 24 w.toNat :=
  BitVec.eq_of_toNat_eq (by rw [toNat_fieldN, BitVec.toNat_ofNat])

theorem colorOf_eq_ofNat :
    colorOf w = ⟨BitVec.ofNat 8 (w.toNat / 2 ^ 16), BitVec.ofNat 8 (w.toNat / 2 ^ 8), BitVec.ofNat 8 w.toNat⟩ := by
  rw [colorOf, fieldA_eq_ofNat, fieldB_eq_ofNat, fieldC_eq_ofNat]

theorem toNat_fieldN_formatT (o a b c : Byte) :
    (fieldN (formatT o a b c)).toNat = (a.toNat * 2 ^ 8 + b.toNat) * 2 ^ 8 + c.toNat := by
  rw [toNat_fieldN, toNat_formatT]
  have := a.isLt; have := b.isLt; have := c.isLt
  omega

/-- Bits 23:0 of a word of format T keep its three operand bytes under any new top byte `o` (R49, R50). -/
theorem formatN_fieldN_formatT (o t a b c : Byte) :
    formatN o (fieldN (formatT t a b c)) = formatT o a b c := by
  apply BitVec.eq_of_toNat_eq
  rw [toNat_formatN, toNat_fieldN_formatT, toNat_formatT]
  omega

end Sys2Proof

open Sys2Proof Sys2Proof.Machine

/-- A RES word is a word of format T with top byte 0 (R57), so a new top byte before its bits 23:0 leaves the
colour where an operand or a data word has it. -/
theorem topByte_append_resWord_low (o : Byte) (x : Color) :
    o ++ (resWord x).extractLsb' 0 24 = formatT o x.r x.g x.b :=
  formatN_fieldN_formatT o 0x00 x.r x.g x.b

/-- Settles O1: one arm of R63 for each clause, with the opcode test and the fields as arithmetic. -/
theorem decodeReadsFieldsByMode : Obligations.DecodeReadsFieldsByMode := by
  intro collect w opc a b c
  have opc_iff (o : Byte) : opcOf w = o ↔ opc = o.toNat := opcOf_eq_iff w o
  have color : colorOf w = ⟨a, b, c⟩ := colorOf_eq_ofNat w
  refine ⟨fun hopen => ?_, ?_, ?_, ?_, ?_⟩
  · rw [decode_of_open hopen, color]
  · rintro rfl h
    rw [decode_zero, decodeOp_hsv2rgb ((opc_iff 0x01).mpr h), fieldA_eq_ofNat, fieldB_eq_ofNat, fieldC_eq_ofNat]
  · rintro rfl h
    rw [decode_zero, decodeOp_encode ((opc_iff 0x02).mpr h), color]
  · rintro rfl h
    rw [decode_zero, decodeOp_encodeMany ((opc_iff 0x03).mpr h), fieldN_eq_ofNat]
  · rintro rfl h1 h2 h3
    rw [decode_zero, decodeOp_reserved (mt (opc_iff 0x01).mp h1) (mt (opc_iff 0x02).mp h2)
      (mt (opc_iff 0x03).mp h3)]

/-- Settles O7: under the ENCODE opcode, or under any top byte while a count is open, bits 23:0 of the RES word
are a word of format T whose operand bytes are the colour. -/
theorem resultWordReadsAsOperand : Obligations.ResultWordReadsAsOperand := by
  intro x collect top
  refine ⟨rfl, ?_, fun h => ?_⟩
  · rw [topByte_append_resWord_low, decode_zero, decodeOp_encode (opcOf_formatT ..), colorOf_formatT]
  · rw [topByte_append_resWord_low, decode_of_open h, colorOf_formatT]

end

section
/-! PROOF. The reference HSV to RGB algorithm at saturation 0 (R72). -/

namespace Sys2Proof.Machine

@[simp] theorem hsvReference_zero_sat (h v : Byte) : hsvReference h 0 v = ⟨v, v, v⟩ := by
  rw [hsvReference, if_pos rfl]

/-- Why R66 has a case for saturation 0: the scaling by 255/256 loses one step of every value but 0. -/
theorem hsvP_zero_sat (v : Byte) : hsvP 0 v = v.toNat - 1 := by
  have hv : v.toNat < 2 ^ 8 := v.isLt
  change v.toNat * 255 / 256 = v.toNat - 1
  omega

end Sys2Proof.Machine

open Sys2Proof Sys2Proof.Machine

/-- Settles O50: saturation 0 takes the special case, and without it `p` is one below the value. -/
theorem zeroSaturationGivesGrey : Obligations.ZeroSaturationGivesGrey :=
  ⟨hsvReference_zero_sat, hsvP_zero_sat 255⟩

end

section
/-! PROOF. The codec functions: the wire word's byte fields (R77), a colour's pulses by index (R78), and the
pulses of a list of colours (R79, R80). -/

namespace Sys2Proof.Machine

variable (c : Config) (x : Color)

@[simp] theorem extractLsb'_wireWord_g : (wireWord x).extractLsb' 16 8 = x.g := by
  calc (wireWord x).extractLsb' 16 8
      = (x.g ++ x.r).extractLsb' 8 8 := BitVec.extractLsb'_append_eq_of_le (by decide)
    _ = x.g := BitVec.extractLsb'_append_eq_left

@[simp] theorem extractLsb'_wireWord_r : (wireWord x).extractLsb' 8 8 = x.r := by
  calc (wireWord x).extractLsb' 8 8
      = (x.g ++ x.r).extractLsb' 0 8 := BitVec.extractLsb'_append_eq_of_le (by decide)
    _ = x.r := BitVec.extractLsb'_append_eq_right

@[simp] theorem extractLsb'_wireWord_b : (wireWord x).extractLsb' 0 8 = x.b :=
  BitVec.extractLsb'_append_eq_right

@[simp] theorem length_encodePulses : (encodePulses c x).length = 24 := by
  rw [encodePulses, List.length_map, List.length_range]

/-- Pulse `k` of a colour carries bit `23 - k` of its wire word (R78). -/
theorem getElem?_encodePulses {k : Nat} (hk : k < 24) :
    (encodePulses c x)[k]? = some (pulseOf c ((wireWord x).getLsbD (23 - k))) := by
  rw [encodePulses, List.getElem?_map, List.getElem?_range hk, Option.map_some]

@[simp] theorem length_encodeManyPulses (xs : List Color) :
    (encodeManyPulses c xs).length = 24 * xs.length := by
  induction xs with
  | nil => rfl
  | cons x xs ih =>
    rw [encodeManyPulses_cons, List.length_append, length_encodePulses, ih, List.length_cons]
    omega

variable {x}

/-- The pulses of colour `i` begin at index `24 * i`: colour 0 passes over one block of 24 each time `i` grows. -/
theorem getElem?_encodeManyPulses {k : Nat} (hk : k < 24) {xs : List Color} {i : Nat} (hx : xs[i]? = some x) :
    (encodeManyPulses c xs)[24 * i + k]? = (encodePulses c x)[k]? := by
  induction xs generalizing i with
  | nil => cases hx
  | cons y ys ih =>
    rw [encodeManyPulses_cons]
    cases i with
    | zero =>
      obtain rfl : y = x := Option.some.inj hx
      rw [Nat.mul_zero, Nat.zero_add, List.getElem?_append_left (by rwa [length_encodePulses])]
    | succ i =>
      have hlen : (encodePulses c y).length ≤ 24 * (i + 1) + k := by rw [length_encodePulses]; omega
      have hidx : 24 * (i + 1) + k - 24 = 24 * i + k := by omega
      rw [List.getElem?_append_right hlen, length_encodePulses, hidx]
      exact ih hx

end Sys2Proof.Machine

open Sys2Proof Sys2Proof.Machine

/-- Settles O44: the concatenation is `flatMap`'s own, and each colour contributes a block of 24 pulses. -/
theorem encodeManyConcatenatesInOrder : Obligations.EncodeManyConcatenatesInOrder := fun c xs =>
  ⟨List.flatMap_def, encodeManyPulses_nil c, length_encodeManyPulses c xs, length_encodePulses c,
    fun _ _ _ hx hk => getElem?_encodeManyPulses c hk hx⟩

/-- Settles O41: each byte of the wire word is a part of its concatenation. -/
theorem wireWordIsGreenRedBlue : Obligations.WireWordIsGreenRedBlue := fun x =>
  ⟨rfl, extractLsb'_wireWord_g x, extractLsb'_wireWord_r x, extractLsb'_wireWord_b x⟩

/-- Settles O42: `pulseOf` of the bit is the pair (T1H, T1L) or (T0H, T0L). -/
theorem encodePulseIsBitOfWireWord : Obligations.EncodePulseIsBitOfWireWord := fun c x =>
  ⟨length_encodePulses c x, fun _ hk => getElem?_encodePulses c x hk⟩

end

section
/-! PROOF. The block after a reset (R111, R112): STATUS reads 0 and no block step is enabled. -/

namespace Sys2Proof.Machine

variable {s : State}

theorem status_of_clear (hc : s.collect = 0) (he : s.emit = 0) (hi : s.ill = false) : status s = 0 := by
  have hpend : dataPend s = false := (dataPend_false_iff s).mpr hc
  have hbusy : busy s = false := by simp [busy, hc, he]
  rw [status, hpend, hi, hbusy]
  decide

/-- With nothing left to emit and no word to take, neither the ACCEPT nor the EMIT step is enabled. -/
theorem blockEnabled_of_cmd_nil (he : s.emit = 0) (hcmd : s.cmd = []) : blockEnabled s = false := by
  rw [Bool.eq_false_iff]
  intro h
  have hle : s.emit ≤ 24 := by rw [he]; decide
  obtain ⟨w, rest, -, hw, -⟩ | ⟨hne, -⟩ := block_cases h hle
  · rw [hcmd] at hw
    cases hw
  · exact hne he

variable (sh : Wire)

@[simp] theorem status_resetWith : status (State.resetWith sh) = 0 :=
  status_of_clear (resetWith_collect sh) (resetWith_emit sh) (resetWith_ill sh)

/-- R112: after reset the block takes no step until the host writes a word. -/
@[simp] theorem blockEnabled_resetWith : blockEnabled (State.resetWith sh) = false :=
  blockEnabled_of_cmd_nil (resetWith_emit sh) (resetWith_cmd sh)

end Sys2Proof.Machine

open Sys2Proof Sys2Proof.Machine

/-- Settles O37: a reset from any system gives `Sys.start sh`, whose block is `State.resetWith sh`. -/
theorem resetClearsTheBlock : Obligations.ResetClearsTheBlock := fun _ sh =>
  ⟨Sys.start sh, move_reset.mpr rfl, resetWith_collect sh, resetWith_emit sh, resetWith_ill sh, resetWith_shift sh,
    resetWith_cmd sh, resetWith_res sh, resetWith_pulse sh, status_resetWith sh, blockEnabled_resetWith sh⟩

end

section
/-! PROOF. Decoding and encoding as inverses of each other (R59, R63), and the opcode table as the map of the
decoded mnemonics (R52). -/

namespace Sys2Proof

variable {collect : Count} {i : Instr} {w : Word}

/-- R51: an instruction is read in the mode that its being a data word selects. -/
theorem Instr.fits_iff : i.fits collect = true ↔ (i.isData = true ↔ collect ≠ 0) := by
  rw [Instr.fits, beq_iff_eq, Bool.eq_iff_iff, decide_eq_true_iff]

/-- In the closed mode the encoder's word of an operation reads as that operation. -/
theorem decodeOp_encode_of_wf (hop : i.isData = false) (hwf : i.wf = true) : decodeOp (encode i) = i := by
  cases i with
  | hsv2rgb h s v =>
    rw [encode, decodeOp_hsv2rgb (opcOf_formatT ..), fieldA_formatT, fieldB_formatT, fieldC_formatT]
  | encode x => rw [encode, decodeOp_encode (opcOf_formatT ..), colorOf_formatT]
  | encodeMany n => rw [encode, decodeOp_encodeMany (opcOf_formatN ..), fieldN_formatN]
  | data x => cases hop
  | reserved w =>
    obtain ⟨h1, h2, h3⟩ := (reservedOpc_iff (opcOf w)).mp hwf
    exact decodeOp_reserved h1 h2 h3

/-- In the open mode the encoder's word of a data instruction reads as that instruction. -/
theorem decode_encode_data (h : collect ≠ 0) (x : Color) : decode collect (encode (.data x)) = .data x := by
  rw [decode_of_open h, encode, colorOf_formatT]

theorem decode_encode (hwf : i.wf = true) (hfit : i.fits collect = true) : decode collect (encode i) = i := by
  have hmode : i.isData = true ↔ collect ≠ 0 := Instr.fits_iff.mp hfit
  cases hd : i.isData with
  | false =>
    obtain rfl : collect = 0 := by
      by_contra hopen
      exact absurd (hmode.mpr hopen) (by rw [hd]; decide)
    rw [decode_zero, decodeOp_encode_of_wf hd hwf]
  | true =>
    cases i with
    | data x => exact decode_encode_data (hmode.mp hd) x
    | hsv2rgb h s v => cases hd
    | encode x => cases hd
    | encodeMany n => cases hd
    | reserved w => cases hd

/-- Every word decodes to a well-formed instruction. -/
theorem decode_wf (collect : Count) (w : Word) : (decode collect w).wf = true := by
  by_cases h : collect = 0
  · subst h
    rw [decode_zero]
    obtain ⟨-, hd⟩ | ⟨-, hd⟩ | ⟨-, hd⟩ | ⟨hres, hd⟩ := decodeOp_cases w <;> rw [hd]
    · rfl
    · rfl
    · rfl
    · exact hres
  · rw [decode_of_open h]
    rfl

/-- An operation word is the encoding of what it decodes to. -/
theorem encode_decodeOp (w : Word) : encode (decodeOp w) = w := by
  obtain ⟨ho, hd⟩ | ⟨ho, hd⟩ | ⟨ho, hd⟩ | ⟨-, hd⟩ := decodeOp_cases w <;> rw [hd, encode]
  · rw [← ho, formatT_fields]
  · rw [← ho]
    exact formatT_fields w
  · rw [← ho, formatN_fields]

/-- The top byte of a data word is the one thing decoding forgets (R59): the encoder writes it as 0. -/
theorem formatT_zero_colorOf (w : Word) :
    formatT 0x00 (fieldA w) (fieldB w) (fieldC w) = (0 : Byte) ++ fieldN w := by
  conv_rhs => rw [← formatT_fields w]
  exact (formatN_fieldN_formatT 0x00 ..).symm

/-! ### The opcode table -/

/-- A word is determined by its opcode and its count field (R50). -/
theorem word_eq_iff {v w : Word} : v = w ↔ opcOf v = opcOf w ∧ fieldN v = fieldN w := by
  refine ⟨fun h => ⟨congrArg opcOf h, congrArg fieldN h⟩, fun ⟨ho, hn⟩ => ?_⟩
  rw [← formatN_fields v, ← formatN_fields w, ho, hn]

/-- A row that looks only at bits 31:24 is a test of the opcode (R52). -/
theorem OpRow.has_eq_opcode {row : OpRow} (hmask : fieldN row.maskBits = 0) (hmatch : fieldN row.matchBits = 0)
    (w : Word) : row.has w = (opcOf w &&& opcOf row.maskBits == opcOf row.matchBits) := by
  have hopc : opcOf (w &&& row.maskBits) = opcOf w &&& opcOf row.maskBits := BitVec.extractLsb'_and
  have hlow : fieldN (w &&& row.maskBits) = fieldN row.matchBits := by
    calc fieldN (w &&& row.maskBits) = fieldN w &&& fieldN row.maskBits := BitVec.extractLsb'_and
      _ = fieldN w &&& 0 := by rw [hmask]
      _ = fieldN row.matchBits := by rw [hmatch]; exact BitVec.and_zero
  rw [OpRow.has, Bool.eq_iff_iff, beq_iff_eq, beq_iff_eq, word_eq_iff, hopc]
  exact and_iff_left hlow

theorem opTable_reads_opcode :
    ∀ row ∈ opTable, fieldN row.maskBits = 0 ∧ fieldN row.matchBits = 0 := by decide

/-- The mnemonics of the rows an opcode belongs to. -/
def opcodeRows (o : Byte) : List String :=
  (opTable.filter fun row => o &&& opcOf row.maskBits == opcOf row.matchBits).map OpRow.mnemonic

theorem opTable_rows_eq (w : Word) :
    (opTable.filter fun row => row.has w).map OpRow.mnemonic = opcodeRows (opcOf w) := by
  rw [opcodeRows]
  congr 1
  refine List.filter_congr fun row hrow => ?_
  obtain ⟨hmask, hmatch⟩ := opTable_reads_opcode row hrow
  exact OpRow.has_eq_opcode hmask hmatch w

/-- The seven masks of the reserved space neither overlap nor leave a gap (log 8). -/
theorem opcodeRows_reserved : ∀ o : Byte, reservedOpc o = true → opcodeRows o = ["RESERVED"] := by decide

/-! ### A sequence of words under an open count -/

theorem toNat_count_pred {n : Count} (h : n ≠ 0) : (n - 1).toNat + 1 = n.toNat := by
  have hpos : n.toNat ≠ 0 := fun h0 => h (BitVec.eq_of_toNat_eq h0)
  have hlt : n.toNat < 2 ^ 24 := n.isLt
  rw [BitVec.toNat_sub, show (1 : Count).toNat = 1 from rfl]
  omega

/-- While the count lasts every word is a colour, whatever it holds (R60, R119), and COLLECT counts down. -/
theorem decodeStream_within_count {ws : List Word} {n : Count} (hlen : ws.length ≤ n.toNat) :
    decodeStream n ws = ws.map (fun w => .data (colorOf w)) ∧
      (collectAfter n ws).toNat + ws.length = n.toNat := by
  induction ws generalizing n with
  | nil => exact ⟨rfl, rfl⟩
  | cons w ws ih =>
    rw [List.length_cons] at hlen
    have hopen : n ≠ 0 := by
      rintro rfl
      exact absurd hlen (by simp)
    have hpred : (n - 1).toNat + 1 = n.toNat := toNat_count_pred hopen
    obtain ⟨hstream, hcount⟩ := ih (n := n - 1) (by omega)
    rw [decodeStream, collectAfter, nextCollect_of_open hopen, decode_of_open hopen, hstream, List.length_cons]
    exact ⟨rfl, by omega⟩

theorem decode_header (n : Count) : decode 0 (encode (.encodeMany n)) = .encodeMany n := decode_encode rfl rfl

/-- A header opens its count (R86). -/
theorem nextCollect_header (n : Count) : nextCollect 0 (encode (.encodeMany n)) = n := by
  rw [nextCollect, decode_header, collectOf_encodeMany]

theorem decodeStream_header (n : Count) (ws : List Word) :
    decodeStream 0 (encode (.encodeMany n) :: ws) = .encodeMany n :: decodeStream n ws := by
  rw [decodeStream, nextCollect_header, decode_header]

end Sys2Proof

open Sys2Proof Sys2Proof.Machine

/-- Settles O3: the closed mode has one fact for each operation, the open mode one for a data word. -/
theorem decodeOfEncode : Obligations.DecodeOfEncode := fun _ _ hwf hfit => decode_encode hwf hfit

/-- Settles O4: an operation word is rebuilt from its own fields, a data word loses its top byte. -/
theorem encodeOfDecode : Obligations.EncodeOfDecode := by
  intro collect w
  refine ⟨decode_wf collect w, Instr.fits_iff.mpr ?_, ?_, fun hopen => ?_⟩
  · rw [decode_isData, decide_eq_true_iff]
  · rintro rfl
    rw [decode_zero, encode_decodeOp]
  · rw [decode_of_open hopen]
    exact formatT_zero_colorOf w

/-- Settles O5: every row of the table is a test of the opcode, so one case for each arm of R63. -/
theorem opTableRowIsTheDecodedOne : Obligations.OpTableRowIsTheDecodedOne := by
  intro w
  rw [opTable_rows_eq, decode_zero]
  obtain ⟨ho, hd⟩ | ⟨ho, hd⟩ | ⟨ho, hd⟩ | ⟨hres, hd⟩ := decodeOp_cases w <;> rw [hd]
  · rw [ho]; exact (by decide : opcodeRows 0x01 = ["HSV2RGB"])
  · rw [ho]; exact (by decide : opcodeRows 0x02 = ["ENCODE"])
  · rw [ho]; exact (by decide : opcodeRows 0x03 = ["ENCODE_MANY"])
  · exact opcodeRows_reserved _ hres

/-- Settles O8: the header opens the count, `n` words close it, and a colour word after that has opcode 0. -/
theorem openCountTakesExactlyItsWords : Obligations.OpenCountTakesExactlyItsWords := by
  intro n ws rest x hlen
  obtain ⟨hstream, hcount⟩ := decodeStream_within_count hlen.le
  have hclosed : collectAfter n ws = 0 := BitVec.eq_of_toNat_eq (show _ = 0 by omega)
  refine ⟨?_, ?_⟩
  · rw [decodeStream_header, decodeStream_append, hstream, hclosed]
    rfl
  · have hopc : opcOf (encode (.data x)) = 0 := opcOf_formatT ..
    rw [decode_zero]
    exact decodeOp_reserved (by rw [hopc]; decide) (by rw [hopc]; decide) (by rw [hopc]; decide)

/-- Settles O2: under an open count a word of format T is read as its three operand bytes. -/
theorem dataWordIgnoresTopByte : Obligations.DataWordIgnoresTopByte := fun _ c x hopen =>
  (decode_of_open hopen).trans (congrArg Instr.data (colorOf_formatT x c))

/-- Settles O6: one word of each format, the reserved space included. -/
theorem writtenOutWordsDecode : Obligations.WrittenOutWordsDecode := by
  unfold Obligations.WrittenOutWordsDecode
  decide

end

section
/-! PROOF. The next state of an ACCEPT step as a function of the instruction it takes (R89), that of an EMIT step
(R90), and what a block step or a block move can do in these terms. -/

namespace Sys2Proof.Machine

/-- The state after an instruction has been taken, with `rest` left on CMD (R65, R82, R86, R87, R100). -/
def State.accepted (s : State) (i : Instr) (rest : List Word) : State :=
  match i with
  | .hsv2rgb h sat v => { s with cmd := rest, res := s.res ++ [resWord (hw.hsvImpl h sat v)] }
  | .encode x => { s with cmd := rest, shift := wireWord x, emit := 24 }
  | .encodeMany n => { s with cmd := rest, collect := n }
  | .data x => { s with cmd := rest, shift := wireWord x, emit := 24, collect := s.collect - 1 }
  | .reserved _ => { s with cmd := rest, ill := true }

/-- The state after one more pulse has been pushed (R90). -/
def State.emitted (s : State) : State :=
  { s with pulse := s.pulse ++ [pulseOf hw (s.shift.getLsbD (s.emit.toNat - 1))], emit := s.emit - 1 }

variable {s : State} {i : Instr} {w : Word} {rest : List Word}

/-! ### The fields of the next state -/

@[simp] theorem accepted_cmd : (s.accepted i rest).cmd = rest := by cases i <;> rfl
@[simp] theorem accepted_pulse : (s.accepted i rest).pulse = s.pulse := by cases i <;> rfl
@[simp] theorem accepted_collect : (s.accepted i rest).collect = collectOf s.collect i := by cases i <;> rfl

@[simp] theorem accepted_res : (s.accepted i rest).res = s.res ++ instrResults hw i := by
  cases i with
  | hsv2rgb h sat v => rfl
  | encode x => exact (List.append_nil _).symm
  | encodeMany n => exact (List.append_nil _).symm
  | data x => exact (List.append_nil _).symm
  | reserved w => exact (List.append_nil _).symm

@[simp] theorem accepted_ill : (s.accepted i rest).ill = (s.ill || instrIsReserved i) := by
  cases i with
  | hsv2rgb h sat v => exact (Bool.or_false _).symm
  | encode x => exact (Bool.or_false _).symm
  | encodeMany n => exact (Bool.or_false _).symm
  | data x => exact (Bool.or_false _).symm
  | reserved w => exact (Bool.or_true _).symm

/-- An instruction gives the stream one colour or none (R92). -/
theorem instrColors_cases (i : Instr) : instrColors i = [] ∨ ∃ x, instrColors i = [x] := by
  cases i with
  | hsv2rgb h sat v => exact .inl rfl
  | encode x => exact .inr ⟨x, rfl⟩
  | encodeMany n => exact .inl rfl
  | data x => exact .inr ⟨x, rfl⟩
  | reserved w => exact .inl rfl

/-- An instruction without a colour leaves SHIFT and EMIT alone. -/
theorem accepted_of_no_color (h : instrColors i = []) :
    (s.accepted i rest).shift = s.shift ∧ (s.accepted i rest).emit = s.emit := by
  cases i with
  | hsv2rgb h sat v => exact ⟨rfl, rfl⟩
  | encode x => cases h
  | encodeMany n => exact ⟨rfl, rfl⟩
  | data x => cases h
  | reserved w => exact ⟨rfl, rfl⟩

/-- An instruction with a colour loads it. -/
theorem accepted_of_color {x : Color} (h : instrColors i = [x]) :
    (s.accepted i rest).shift = wireWord x ∧ (s.accepted i rest).emit = 24 := by
  cases i with
  | hsv2rgb h sat v => cases h
  | encode x => cases h; exact ⟨rfl, rfl⟩
  | encodeMany n => cases h
  | data x => cases h; exact ⟨rfl, rfl⟩
  | reserved w => cases h

@[simp] theorem emitted_emit : s.emitted.emit = s.emit - 1 := rfl
@[simp] theorem emitted_shift : s.emitted.shift = s.shift := rfl
@[simp] theorem emitted_ill : s.emitted.ill = s.ill := rfl
@[simp] theorem emitted_pulse :
    s.emitted.pulse = s.pulse ++ [pulseOf hw (s.shift.getLsbD (s.emit.toNat - 1))] := rfl

/-! ### The instructions -/

/-- An instruction whose word can be taken, and whose result has room, completes. -/
theorem exec_of_ready (ht : Takes i.isData s w rest) (hr : resReady s i = true) :
    exec i s = .next (s.accepted i rest) := by
  cases i with
  | hsv2rgb h sat v => exact exec_hsv2rgb_of_room ht hr h sat v
  | encode x => exact exec_encode_of_takes ht x
  | encodeMany n => exact exec_encodeMany_of_takes ht n
  | data x => exact exec_data_of_takes ht x
  | reserved x => exact exec_reserved_of_takes ht x

/-- An instruction whose result has no room waits: it is HSV2RGB (R65). -/
theorem exec_of_not_ready (ht : Takes i.isData s w rest) (hr : resReady s i = false) :
    exec i s = .next s := by
  cases i with
  | hsv2rgb h sat v => exact exec_hsv2rgb_of_full ht hr h sat v
  | encode x => cases hr
  | encodeMany n => cases hr
  | data x => cases hr
  | reserved x => cases hr

/-- An instruction completes or waits; it neither faults nor refuses. -/
theorem exec_accepted_or_same (i : Instr) (s : State) :
    (∃ w rest, s.cmd = w :: rest ∧ exec i s = .next (s.accepted i rest)) ∨ exec i s = .next s := by
  by_cases h : ∃ w rest, Takes i.isData s w rest
  · obtain ⟨w, rest, ht⟩ := h
    cases hr : resReady s i with
    | true => exact .inl ⟨w, rest, ht.cmd, exec_of_ready ht hr⟩
    | false => exact .inr (exec_of_not_ready ht hr)
  · exact .inr (exec_of_not_takes fun w rest ht => h ⟨w, rest, ht⟩)

/-! ### The block's step -/

/-- What an enabled ACCEPT step does: it takes the oldest word, which has the room it needs. -/
structure AcceptsTo (s : State) (w : Word) (rest : List Word) (t : State) : Prop where
  emit : s.emit = 0
  cmd : s.cmd = w :: rest
  ready : resReady s (decode s.collect w) = true
  next : t = s.accepted (decode s.collect w) rest

/-- What an enabled EMIT step does. -/
structure EmitsTo (s t : State) : Prop where
  emit : s.emit ≠ 0
  room : hasRoom hw.pulseDepth s.pulse = true
  next : t = s.emitted

theorem acceptEnabled_of_cmd (h0 : s.emit = 0) (hc : s.cmd = w :: rest) :
    acceptEnabled s = resReady s (decode s.collect w) := by rw [acceptEnabled, fetch_of_cmd h0 hc]

/-- An enabled block step of a legal state takes a word or pushes a pulse. -/
theorem step_of_enabled (h : blockEnabled s = true) (hle : s.emit ≤ 24) :
    ∃ t, step s = .next t ∧ ((∃ w rest, AcceptsTo s w rest t) ∨ EmitsTo s t) := by
  obtain ⟨w, rest, h0, hc, -, -⟩ | ⟨h0, -, hr, hs⟩ := block_cases h hle
  · have hready : resReady s (decode s.collect w) = true := by
      rw [blockEnabled, Bool.or_eq_true] at h
      rw [← acceptEnabled_of_cmd h0 hc]
      exact h.resolve_right fun he => emitEnabled_emit he h0
    have hstep : step s = .next (s.accepted (decode s.collect w) rest) := by
      rw [step_of_cmd h0 hc, exec_of_ready (takes_of_cmd h0 hc) hready]
    exact ⟨_, hstep, .inl ⟨w, rest, h0, hc, hready, rfl⟩⟩
  · exact ⟨_, hs, .inr ⟨h0, hr, rfl⟩⟩

/-- Everything a step of a legal state answers (R89 to R91, R110). -/
theorem step_cases (hle : s.emit ≤ 24) :
    ∃ t, step s = .next t ∧ (t = s ∨ (∃ w rest, AcceptsTo s w rest t) ∨ EmitsTo s t) := by
  cases h : blockEnabled s with
  | false => exact ⟨s, step_of_not_enabled h hle, .inl rfl⟩
  | true =>
    obtain ⟨t, hs, ht⟩ := step_of_enabled h hle
    exact ⟨t, hs, .inr ht⟩

/-! ### The block's move -/

variable {y z : Sys}

/-- Everything a block move does to the block and to the history (R92). -/
theorem move_block_cases (hle : y.block.emit ≤ 24) (h : y.move .block = some z) :
    (∃ w rest, AcceptsTo y.block w rest z.block ∧
      z = { y with block := z.block, taken := y.taken ++ [w],
                   acc := y.acc ++ instrColors (decode y.block.collect w) }) ∨
    (EmitsTo y.block z.block ∧ z = { y with block := z.block }) := by
  obtain ⟨hb, t, hs, rfl⟩ := move_block.mp h
  obtain ⟨t', hs', ⟨w, rest, ha⟩ | he⟩ := step_of_enabled hb hle
  · obtain rfl : t = t' := Host.Outcome.next.inj (hs.symm.trans hs')
    refine .inl ⟨w, rest, ha, ?_⟩
    rw [takenBy_of_cmd ha.emit ha.cmd, colorsBy_of_fetch (fetch_of_cmd ha.emit ha.cmd)]
  · obtain rfl : t = t' := Host.Outcome.next.inj (hs.symm.trans hs')
    have hf : fetch y.block = none := by rw [fetch, if_neg he.emit]
    refine .inr ⟨he, ?_⟩
    rw [takenBy_of_emit he.emit, colorsBy_of_no_fetch hf, List.append_nil, List.append_nil]

/-- The block's move on a word it is ready to take. -/
theorem move_block_of_accept (h0 : y.block.emit = 0) (hcmd : y.block.cmd = w :: rest)
    (hr : resReady y.block (decode y.block.collect w) = true) :
    y.move .block = some { y with block := y.block.accepted (decode y.block.collect w) rest,
                                  taken := y.taken ++ [w],
                                  acc := y.acc ++ instrColors (decode y.block.collect w) } := by
  have hf : fetch y.block = some (decode y.block.collect w) := fetch_of_cmd h0 hcmd
  have hstep : step y.block = .next (y.block.accepted (decode y.block.collect w) rest) := by
    rw [step_of_cmd h0 hcmd, exec_of_ready (takes_of_cmd h0 hcmd) hr]
  refine move_block.mpr ⟨blockEnabled_of_fetch hf hr, _, hstep, ?_⟩
  rw [takenBy_of_cmd h0 hcmd, colorsBy_of_fetch hf]

/-- The block's move while pulses are to come and PULSE has room. -/
theorem move_block_of_emit (h0 : y.block.emit ≠ 0) (hle : y.block.emit ≤ 24)
    (hr : hasRoom hw.pulseDepth y.block.pulse = true) :
    y.move .block = some { y with block := y.block.emitted } := by
  have hf : fetch y.block = none := by rw [fetch, if_neg h0]
  have hstep : step y.block = .next y.block.emitted := by
    rw [step_of_emit h0, emitStep_of_room h0 hle hr]
    rfl
  refine move_block.mpr ⟨blockEnabled_of_emit h0 hr, _, hstep, ?_⟩
  rw [takenBy_of_emit h0, colorsBy_of_no_fetch hf, List.append_nil, List.append_nil]

end Sys2Proof.Machine
end

section
/-! PROOF. The instructions and the step: where each completes, where it waits, and what it leaves unchanged. -/

namespace Sys2Proof.Machine

variable {s : State} {i : Instr} {w : Word} {rest : List Word}

theorem takes_operation (hc : s.collect = 0) (h0 : s.emit = 0) (hcmd : s.cmd = w :: rest) :
    Takes false s w rest := ⟨h0, (dataPend_false_iff s).mpr hc, hcmd⟩

theorem takes_data (hc : s.collect ≠ 0) (h0 : s.emit = 0) (hcmd : s.cmd = w :: rest) :
    Takes true s w rest := ⟨h0, (dataPend_iff s).mpr hc, hcmd⟩

theorem Takes.fits (ht : Takes i.isData s w rest) : i.fits s.collect = true := by
  rw [Instr.fits_iff, ← ht.mode, dataPend_iff]

theorem hasRoom_of_lt {α : Type} {d : Nat} {ch : List α} (h : ch.length < d) : hasRoom d ch = true :=
  (hasRoom_iff (Nat.one_le_of_lt h) ch).mpr h

theorem hw_pulse_full_iff : hasRoom hw.pulseDepth s.pulse = false ↔ hw.pulseDepth ≤ s.pulse.length :=
  hasRoom_false_iff hw_pulseDepth_pos _

theorem hw_res_full_iff : hasRoom hw.resDepth s.res = false ↔ hw.resDepth ≤ s.res.length :=
  hasRoom_false_iff hw_resDepth_pos _

/-! ### Which part of the state an instruction does not write -/

variable (c : Config) (n : Count)

theorem instrResults_eq_nil (h : ∀ a b d, i ≠ .hsv2rgb a b d) : instrResults c i = [] := by
  cases i with
  | hsv2rgb a b d => exact absurd rfl (h a b d)
  | encode x => rfl
  | encodeMany n => rfl
  | data x => rfl
  | reserved w => rfl

theorem instrColors_eq_nil (he : ∀ x, i ≠ .encode x) (hd : ∀ x, i ≠ .data x) : instrColors i = [] := by
  cases i with
  | hsv2rgb a b d => rfl
  | encode x => exact absurd rfl (he x)
  | encodeMany n => rfl
  | data x => exact absurd rfl (hd x)
  | reserved w => rfl

theorem collectOf_eq_self (hm : ∀ m, i ≠ .encodeMany m) (hd : ∀ x, i ≠ .data x) : collectOf n i = n := by
  cases i with
  | hsv2rgb a b d => rfl
  | encode x => rfl
  | encodeMany m => exact absurd rfl (hm m)
  | data x => exact absurd rfl (hd x)
  | reserved w => rfl

theorem instrIsReserved_iff : instrIsReserved i = true ↔ ∃ w, i = .reserved w := by
  cases i with
  | reserved w => exact ⟨fun _ => ⟨w, rfl⟩, fun _ => rfl⟩
  | hsv2rgb a b d => simp [instrIsReserved]
  | encode x => simp [instrIsReserved]
  | encodeMany m => simp [instrIsReserved]
  | data x => simp [instrIsReserved]

theorem instrIsReserved_eq_false (h : ∀ w, i ≠ .reserved w) : instrIsReserved i = false := by
  rw [Bool.eq_false_iff, ne_eq, instrIsReserved_iff]
  rintro ⟨w, hw⟩
  exact h w hw

end Sys2Proof.Machine

open Sys2Proof Sys2Proof.Machine

/-- Settles O17: each of the three conditions breaks one clause of `Takes`. -/
theorem instructionWaitsUntilTaken : Obligations.InstructionWaitsUntilTaken := by
  intro i s h
  refine exec_of_not_takes fun w rest ht => ?_
  obtain hemit | hcmd | hfits := h
  · exact hemit ht.emit
  · rw [ht.cmd] at hcmd
    cases hcmd
  · rw [ht.fits] at hfits
    cases hfits

/-- Settles O18: an instruction that completes changes only the fields of `State.accepted` that depend on it. -/
theorem instructionFrame : Obligations.InstructionFrame := by
  intro i s
  obtain ⟨w, rest, hcmd, hexec⟩ | hexec := exec_accepted_or_same i s
  · refine ⟨_, hexec, accepted_pulse, .inr ?_, fun h => ?_, fun he hd => ?_, fun hm hd => ?_, fun h => ?_⟩
    · rw [accepted_cmd, hcmd, List.tail_cons]
    · rw [accepted_res, instrResults_eq_nil hw h, List.append_nil]
    · exact accepted_of_no_color (instrColors_eq_nil he hd)
    · rw [accepted_collect, collectOf_eq_self _ hm hd]
    · rw [accepted_ill, instrIsReserved_eq_false h, Bool.or_false]
  · exact ⟨s, hexec, rfl, .inl rfl, fun _ => rfl, fun _ _ => ⟨rfl, rfl⟩, fun _ _ => rfl, fun _ => rfl⟩

/-- Settles O11: the word can be taken and RES has room. -/
theorem hsv2rgbPushesItsColor : Obligations.Hsv2rgbPushesItsColor := fun h sat v _ _ _ hc h0 hcmd hroom =>
  exec_hsv2rgb_of_room (takes_operation hc h0 hcmd) (hasRoom_of_lt hroom) h sat v

/-- Settles O12: the word waits for RES, or it cannot be taken at all. -/
theorem hsv2rgbWaitsOnFullRes : Obligations.Hsv2rgbWaitsOnFullRes := by
  intro h sat v s hfull
  by_cases htakes : ∃ w rest, Takes false s w rest
  · obtain ⟨w, rest, ht⟩ := htakes
    exact exec_hsv2rgb_of_full ht (hw_res_full_iff.mpr hfull) h sat v
  · exact exec_of_not_takes fun w rest ht => htakes ⟨w, rest, ht⟩

/-- Settles O13: the word can be taken. -/
theorem encodeLoadsItsColor : Obligations.EncodeLoadsItsColor := fun x _ _ _ hc h0 hcmd =>
  exec_encode_of_takes (takes_operation hc h0 hcmd) x

/-- Settles O14: with count 0 the COLLECT written is the one already there. -/
theorem encodeManyOpensItsCount : Obligations.EncodeManyOpensItsCount := by
  intro n s w rest hc h0 hcmd
  have ht : Takes false s w rest := takes_operation hc h0 hcmd
  refine ⟨exec_encodeMany_of_takes ht n, ?_⟩
  rw [exec_encodeMany_of_takes ht, ← hc]

/-- Settles O15: an open count is not 0, so counting it down does not wrap. -/
theorem dataLoadsItsColorAndCountsDown : Obligations.DataLoadsItsColorAndCountsDown := fun x s _ _ hc h0 hcmd =>
  ⟨s.collect - 1, toNat_count_pred hc, exec_data_of_takes (takes_data hc h0 hcmd) x⟩

/-- Settles O16: the word can be taken. -/
theorem reservedSetsOnlyIll : Obligations.ReservedSetsOnlyIll := fun x _ _ _ hc h0 hcmd =>
  exec_reserved_of_takes (takes_operation hc h0 hcmd) x

/-- Settles O48: the word can be taken, RES has room, and the colour pushed is the one R68 fixes. -/
theorem permittedHsvGivesRedAtHueZero : Obligations.PermittedHsvGivesRedAtHueZero := by
  intro c s w rest hperm hc h0 hcmd hroom
  have hred : resWord (c.hsvImpl 0 255 255) = 0x00FF0000 := by
    rw [show c.hsvImpl 0 255 255 = ⟨255, 0, 0⟩ from hperm]
    decide
  rw [hsv2rgbOn, takeWord_of_takes (takes_operation hc h0 hcmd), hred, chanPush_of_room (hasRoom_of_lt hroom)]

/-- Settles O9: one clause for each of the step lemmas. -/
theorem stepRunsDecodedWord : Obligations.StepRunsDecodedWord :=
  ⟨fun _ _ _ => step_of_cmd, fun _ => step_of_emit, fun _ => step_of_idle⟩

/-- Settles O10: the placed word heads CMD, with EMIT = 0 and COLLECT = 0. -/
theorem placedWordRunsNext : Obligations.PlacedWordRunsNext := fun s nbits w hbits =>
  ⟨decode 0 (tableWord nbits w), if_pos hbits,
    step_of_cmd (withFetchWord_emit s nbits w) (withFetchWord_cmd s nbits w), rfl, rfl, rfl, rfl⟩

/-- Settles O19: EMIT is not 0, so counting it down does not wrap. -/
theorem emitStepPushesNextPulse : Obligations.EmitStepPushesNextPulse := by
  intro s h0 hle hroom
  refine ⟨s.emit - 1, (emit_toNat_pred h0).symm, ?_⟩
  rw [step_of_emit h0, emitStep_of_room h0 hle (hasRoom_of_lt hroom)]
  rfl

/-- Settles O20: the EMIT step with PULSE full, and with EMIT above 24. -/
theorem emitStepWaitsOrStops : Obligations.EmitStepWaitsOrStops := by
  refine ⟨fun s h0 hle hfull => ?_, fun s hgt => ?_⟩
  · rw [step_of_emit h0, emitStep_of_full h0 hle (hw_pulse_full_iff.mpr hfull)]
  · have h0 : s.emit ≠ 0 := by
      intro h
      rw [h] at hgt
      cases hgt
    rw [step_of_emit h0, emitStep_of_illegal (BitVec.lt_def.mpr hgt)]

/-- Settles O21: an ACCEPT step needs EMIT = 0, an EMIT step needs it not 0. -/
theorem atMostOneBlockStepEnabled : Obligations.AtMostOneBlockStepEnabled :=
  ⟨fun _ ⟨ha, he⟩ => emitEnabled_emit he (acceptEnabled_emit ha), fun _ hle h => step_of_not_enabled h hle⟩

/-- Settles O22: the two kinds of block move. -/
theorem blockTakesAWordOrPushesAPulse : Obligations.BlockTakesAWordOrPushesAPulse := by
  intro y z hle hmove
  obtain ⟨w, rest, ha, hz⟩ | ⟨he, hz⟩ := move_block_cases hle hmove
  · refine ⟨fun _ => ⟨⟨w, ?_, ?_⟩, ?_⟩, fun hne => absurd ha.emit hne⟩
    · rw [ha.next, accepted_cmd, ha.cmd]
    · rw [hz]
    · rw [ha.next, accepted_pulse]
  · refine ⟨fun h0 => absurd h0 he.emit, fun _ => ?_⟩
    rw [he.next] at hz
    rw [hz]
    exact ⟨rfl, rfl, rfl, rfl, _, rfl⟩

end

section
/-! PROOF. The channels and the moves of the host and the consumer (R12, R46, R47), the bits of STATUS (R22), and
what sets ILL (R21). -/

namespace Sys2Proof.Machine

/-! ### STATUS -/

variable (s : State)

@[simp] theorem status_bit_zero : (status s).getLsbD 0 = busy s := by
  simp only [status, BitVec.getLsbD_append]
  simp

@[simp] theorem status_bit_one : (status s).getLsbD 1 = s.ill := by
  simp only [status, BitVec.getLsbD_append]
  simp

@[simp] theorem status_bit_two : (status s).getLsbD 2 = dataPend s := by
  simp only [status, BitVec.getLsbD_append]
  simp

theorem status_bit_high {k : Nat} (h : 3 ≤ k) : (status s).getLsbD k = false := by
  have h0 : ¬ k < 1 := by omega
  have h1 : ¬ k - 1 < 1 := by omega
  have h2 : ¬ k - 1 - 1 < 1 := by omega
  simp only [status, BitVec.getLsbD_append, h0, h1, h2]
  exact BitVec.getLsbD_zero

/-! ### ILL -/

/-- A word that decodes as reserved decodes as itself (R59). -/
theorem decode_eq_reserved {collect : Count} {w : Word} (h : instrIsReserved (decode collect w) = true) :
    decode collect w = .reserved w := by
  by_cases hc : collect = 0
  · subst hc
    rw [decode_zero] at h ⊢
    obtain ⟨-, hd⟩ | ⟨-, hd⟩ | ⟨-, hd⟩ | ⟨-, hd⟩ := decodeOp_cases w
    · rw [hd] at h; cases h
    · rw [hd] at h; cases h
    · rw [hd] at h; cases h
    · exact hd
  · rw [decode_of_open hc] at h
    cases h

variable {m : Move} {y z : Sys}

/-- A move that is no reset and not the block's leaves ILL alone. -/
theorem ill_of_partner_move (hb : m ≠ .block) (hr : ∀ sh, m ≠ .reset sh) (h : y.move m = some z) :
    z.block.ill = y.block.ill := by
  cases m with
  | push w => obtain ⟨q, -, rfl⟩ := move_push.mp h; rfl
  | popRes => obtain ⟨w, q, -, rfl⟩ := move_popRes.mp h; rfl
  | readStatus => obtain rfl := move_readStatus.mp h; rfl
  | popPulse => obtain ⟨p, q, -, rfl⟩ := move_popPulse.mp h; rfl
  | reset sh => exact absurd rfl (hr sh)
  | block => exact absurd rfl hb

end Sys2Proof.Machine

open Sys2Proof Sys2Proof.Machine

/-- Settles O34: STATUS is a concatenation of its bits. -/
theorem statusBitsAreComputed : Obligations.StatusBitsAreComputed :=
  ⟨fun s => ⟨status_bit_zero s, status_bit_one s, status_bit_two s, fun _ hk => status_bit_high s hk⟩,
    status_resetWith⟩

/-- Settles O35: one clause for each partner move. -/
theorem partnerMovesTouchOneChannel : Obligations.PartnerMovesTouchOneChannel := by
  intro y z
  refine ⟨fun w h => ?_, fun h => ?_, fun h => ?_, fun h => ?_⟩
  · obtain ⟨q, hq, rfl⟩ := move_push.mp h
    obtain ⟨hroom, rfl⟩ := chanPush_eq_some.mp hq
    exact ⟨rfl, (hasRoom_iff hw_cmdDepth_pos _).mp hroom⟩
  · obtain ⟨w, q, hq, rfl⟩ := move_popRes.mp h
    exact ⟨w, hq, rfl, rfl⟩
  · obtain ⟨p, q, hq, rfl⟩ := move_popPulse.mp h
    exact ⟨p, hq, rfl, rfl⟩
  · obtain rfl := move_readStatus.mp h
    exact ⟨rfl, rfl⟩

/-- Settles O36: only the block's ACCEPT step writes ILL, and only by setting it. -/
theorem illIsStickyUntilReset : Obligations.IllIsStickyUntilReset := by
  intro m y z hreset hle hmove
  by_cases hm : m = .block
  case neg =>
    have hsame : z.block.ill = y.block.ill := ill_of_partner_move hm hreset hmove
    rw [hsame]
    exact ⟨id, fun h0 h1 => absurd (h0.symm.trans h1) Bool.false_ne_true⟩
  subst hm
  obtain ⟨w, rest, ha, -⟩ | ⟨he, -⟩ := move_block_cases hle hmove
  · rw [ha.next, accepted_ill]
    refine ⟨fun h => by rw [h, Bool.true_or], fun h0 h1 => ⟨rfl, w, rest, ha.cmd, decode_eq_reserved ?_⟩⟩
    rwa [h0, Bool.false_or] at h1
  · rw [he.next, emitted_ill]
    exact ⟨id, fun h0 h1 => absurd (h0.symm.trans h1) Bool.false_ne_true⟩

/-- Settles O55: the channel operations, with a capacity of at least 1. -/
theorem channelsAreFirstInFirstOut : Obligations.ChannelsAreFirstInFirstOut := fun _ ch v hd =>
  ⟨fun h => chanPush_of_room (hasRoom_of_lt h) v, fun h => chanPush_of_full ((hasRoom_false_iff hd ch).mpr h) v,
    chanPop_nil, chanPop_cons v ch⟩

end

section
/-! PROOF. The state invariants (R29, R24 to R26) along the block's step. -/

namespace Sys2Proof.Machine

variable {s t : State} {w : Word} {rest : List Word}

/-- R29 (c) is carried by the type of COLLECT. -/
theorem count_le_max (n : Count) : n.toNat ≤ 2 ^ 24 - 1 := Nat.le_sub_one_of_lt n.isLt

theorem resetWith_inv (sh : Wire) : (State.resetWith sh).Inv where
  emit_le := Nat.zero_le _
  collect_le := count_le_max _
  pulses := fun _ hp => absurd hp List.not_mem_nil
  cmd_le := Nat.zero_le _
  res_le := Nat.zero_le _
  pulse_le := Nat.zero_le _

/-- Only HSV2RGB pushes a result, and it is ready only where RES has room (R65). -/
theorem length_results_le {i : Instr} (hle : s.res.length ≤ hw.resDepth) (hr : resReady s i = true) :
    (s.res ++ instrResults hw i).length ≤ hw.resDepth := by
  cases i with
  | hsv2rgb a b c => exact chanPush_length_le hw_resDepth_pos (chanPush_of_room hr _)
  | encode x => simpa [instrResults] using hle
  | encodeMany n => simpa [instrResults] using hle
  | data x => simpa [instrResults] using hle
  | reserved w => simpa [instrResults] using hle

/-- EMIT is untouched or loaded with 24. -/
theorem accepted_emit_le {i : Instr} (h : s.emit.toNat ≤ 24) : (s.accepted i rest).emit.toNat ≤ 24 := by
  obtain hn | ⟨x, hx⟩ := instrColors_cases i
  · rw [(accepted_of_no_color hn).2]; exact h
  · rw [(accepted_of_color hx).2]; decide

theorem AcceptsTo.keeps_inv (ha : AcceptsTo s w rest t) (h : s.Inv) : t.Inv := by
  obtain ⟨-, hcmd, hready, rfl⟩ := ha
  have hlen : rest.length + 1 ≤ hw.cmdDepth := by
    have hle := h.cmd_le
    rwa [hcmd, List.length_cons] at hle
  exact {
    emit_le := accepted_emit_le h.emit_le
    collect_le := count_le_max _
    pulses := by rw [accepted_pulse]; exact h.pulses
    cmd_le := by rw [accepted_cmd]; omega
    res_le := by rw [accepted_res]; exact length_results_le h.res_le hready
    pulse_le := by rw [accepted_pulse]; exact h.pulse_le }

theorem EmitsTo.keeps_inv (he : EmitsTo s t) (h : s.Inv) : t.Inv := by
  obtain ⟨h0, hroom, rfl⟩ := he
  exact {
    emit_le := emit_pred_le h0 h.emit_le
    collect_le := h.collect_le
    pulses := by
      intro p hp
      rw [emitted_pulse, List.mem_append, List.mem_singleton] at hp
      obtain hold | rfl := hp
      · exact h.pulses p hold
      · exact pulseOf_mem hw _
    cmd_le := h.cmd_le
    res_le := h.res_le
    pulse_le := chanPush_length_le hw_pulseDepth_pos (chanPush_of_room hroom _) }

end Sys2Proof.Machine

open Sys2Proof Sys2Proof.Machine

/-- Settles O23: a step takes a word, pushes a pulse, or changes nothing. -/
theorem stepKeepsStateInvariants : Obligations.StepKeepsStateInvariants := by
  intro s t hinv hstep
  obtain ⟨t', hstep', hcases⟩ := step_cases hinv.emit_le
  obtain rfl : t = t' := Host.Outcome.next.inj (hstep.symm.trans hstep')
  obtain rfl | ⟨w, rest, ha⟩ | he := hcases
  · exact hinv
  · exact ha.keeps_inv hinv
  · exact he.keeps_inv hinv

/-- Settles O24: EMIT is at most 24, so the one fault cannot occur. -/
theorem stepNeverStops : Obligations.StepNeverStops := by
  intro s hinv
  obtain ⟨t, hstep, -⟩ := step_cases hinv.emit_le
  exact ⟨t, hstep⟩

/-- Settles O25: after a reset EMIT is 0 and the channels are empty. -/
theorem resetStateHasInvariants : Obligations.ResetStateHasInvariants := ⟨resetWith_inv 0, resetWith_inv⟩

end

section
/-! PROOF. The stream law (R92), the word law (R31, R39) and the invariants along every move of every agent, and
what they say of every reachable system. -/

namespace Sys2Proof.Machine

variable {y z : Sys} {s t : State} {i : Instr} {w : Word} {rest : List Word}

theorem Sys.streamLaw_iff : y.StreamLaw ↔
    y.sent ++ y.block.pulse ++ pendingPulses hw y.block = encodeManyPulses hw y.acc := Iff.rfl

/-! ### The block's moves -/

/-- What an instruction leaves to come is the pulses of its colour, if it has one. -/
theorem pendingPulses_accepted (c : Config) (h0 : s.emit = 0) :
    pendingPulses c (s.accepted i rest) = encodeManyPulses c (instrColors i) := by
  obtain hn | ⟨x, hx⟩ := instrColors_cases i
  · rw [hn, pendingPulses_of_zero c ((accepted_of_no_color hn).2.trans h0), encodeManyPulses_nil]
  · obtain ⟨hshift, hemit⟩ := accepted_of_color (s := s) (rest := rest) hx
    rw [hx, pendingPulses_of_loaded c hemit hshift, encodeManyPulses_cons, encodeManyPulses_nil, List.append_nil]

/-- Taking a word adds what it decodes to, under the present COLLECT, to the word law. -/
theorem Sys.WordLaw.after_accept (ha : AcceptsTo y.block w rest t) (h : y.WordLaw) :
    Sys.WordLaw { y with block := t, taken := y.taken ++ [w],
                         acc := y.acc ++ instrColors (decode y.block.collect w) } := by
  obtain ⟨-, hcmd, -, rfl⟩ := ha
  have hstream : decodeStream 0 (y.taken ++ [w]) = decodeStream 0 y.taken ++ [decode y.block.collect w] := by
    rw [decodeStream_snoc, ← h.collect]
  exact {
    order := by rw [h.order, hcmd, accepted_cmd, List.append_assoc]; rfl
    collect := by rw [accepted_collect, collectAfter_snoc, ← h.collect]; rfl
    colors := by rw [hstream, List.flatMap_append, List.flatMap_singleton, ← h.colors]
    results := by
      rw [hstream, List.flatMap_append, List.flatMap_singleton, ← h.results, accepted_res, List.append_assoc]
    ill := by rw [hstream, List.any_append, ← h.ill, accepted_ill, List.any_cons, List.any_nil, Bool.or_false] }

theorem accept_keeps_inv (ha : AcceptsTo y.block w rest t) (h : y.Inv) :
    Sys.Inv { y with block := t, taken := y.taken ++ [w],
                     acc := y.acc ++ instrColors (decode y.block.collect w) } := by
  refine ⟨ha.keeps_inv h.block, ?_, h.words.after_accept ha, ?_⟩
  · have hstream := Sys.streamLaw_iff.mp h.stream
    rw [pendingPulses_of_zero hw ha.emit, List.append_nil] at hstream
    rw [Sys.streamLaw_iff, ha.next, accepted_pulse, pendingPulses_accepted hw ha.emit, encodeManyPulses_append, hstream]
  · intro hemit
    obtain hn | ⟨x, hx⟩ := instrColors_cases (decode y.block.collect w)
    · rw [ha.next, (accepted_of_no_color hn).2] at hemit
      exact absurd ha.emit hemit
    · refine ⟨x, ?_, ?_⟩
      · rw [hx, List.getLast?_concat]
      · rw [ha.next, (accepted_of_color hx).1]

/-- Pushing a pulse moves it from those to come to those on PULSE. -/
theorem emit_keeps_inv (he : EmitsTo y.block t) (h : y.Inv) : Sys.Inv { y with block := t } := by
  have hblock : t.Inv := he.keeps_inv h.block
  obtain ⟨h0, -, rfl⟩ := he
  have hstream := Sys.streamLaw_iff.mp h.stream
  rw [pendingPulses_of_pos hw h0 emitted_emit emitted_shift] at hstream
  obtain ⟨horder, hcollect, hcolors, hresults, hill⟩ := h.words
  refine ⟨hblock, ?_, ⟨horder, hcollect, hcolors, hresults, hill⟩, fun _ => h.shift h0⟩
  rw [Sys.streamLaw_iff, ← hstream, emitted_pulse]
  simp only [List.append_assoc, List.cons_append, List.nil_append]

theorem block_keeps_inv (h : y.Inv) (hmove : y.move .block = some z) : z.Inv := by
  obtain ⟨w, rest, ha, hz⟩ | ⟨he, hz⟩ := move_block_cases h.block.emit_le hmove
  · rw [hz]; exact accept_keeps_inv ha h
  · rw [hz]; exact emit_keeps_inv he h

/-! ### The partners' moves -/

theorem push_keeps_inv (h : y.Inv) (hmove : y.move (.push w) = some z) : z.Inv := by
  obtain ⟨q, hq, rfl⟩ := move_push.mp hmove
  obtain ⟨-, rfl⟩ := chanPush_eq_some.mp hq
  obtain ⟨horder, hcollect, hcolors, hresults, hill⟩ := h.words
  refine ⟨{ h.block with cmd_le := chanPush_length_le hw_cmdDepth_pos hq }, h.stream,
    ⟨?_, hcollect, hcolors, hresults, hill⟩, h.shift⟩
  rw [horder, List.append_assoc]

theorem popRes_keeps_inv (h : y.Inv) (hmove : y.move .popRes = some z) : z.Inv := by
  obtain ⟨w, q, hq, rfl⟩ := move_popRes.mp hmove
  obtain ⟨horder, hcollect, hcolors, hresults, hill⟩ := h.words
  have hle : q.length + 1 ≤ hw.resDepth := by
    have hcap := h.block.res_le
    rwa [hq, List.length_cons] at hcap
  refine ⟨{ h.block with res_le := Nat.le_of_succ_le hle }, h.stream,
    ⟨horder, hcollect, hcolors, ?_, hill⟩, h.shift⟩
  rw [← hresults, hq, List.append_assoc]
  rfl

theorem popPulse_keeps_inv (h : y.Inv) (hmove : y.move .popPulse = some z) : z.Inv := by
  obtain ⟨p, q, hq, rfl⟩ := move_popPulse.mp hmove
  obtain ⟨horder, hcollect, hcolors, hresults, hill⟩ := h.words
  have hle : q.length + 1 ≤ hw.pulseDepth := by
    have hcap := h.block.pulse_le
    rwa [hq, List.length_cons] at hcap
  have hpulses : ∀ p' ∈ q, p' = hw.p0 ∨ p' = hw.p1 := fun p' hp' =>
    h.block.pulses p' (by rw [hq]; exact List.mem_cons_of_mem p hp')
  refine ⟨{ h.block with pulses := hpulses, pulse_le := Nat.le_of_succ_le hle }, ?_,
    ⟨horder, hcollect, hcolors, hresults, hill⟩, h.shift⟩
  have hstream := Sys.streamLaw_iff.mp h.stream
  rw [hq] at hstream
  rw [Sys.streamLaw_iff, ← hstream, List.append_assoc y.sent]
  rfl

theorem readStatus_keeps_inv (h : y.Inv) (hmove : y.move .readStatus = some z) : z.Inv := by
  obtain rfl := move_readStatus.mp hmove
  obtain ⟨horder, hcollect, hcolors, hresults, hill⟩ := h.words
  exact ⟨h.block, h.stream, ⟨horder, hcollect, hcolors, hresults, hill⟩, h.shift⟩

/-- After a reset there is no history and nothing to come. -/
theorem start_sysInv (sh : Wire) : (Sys.start sh).Inv where
  block := resetWith_inv sh
  stream := rfl
  words := ⟨rfl, rfl, rfl, rfl, rfl⟩
  shift := fun h => absurd rfl h

theorem move_keeps_inv (m : Move) (y z : Sys) (h : y.Inv) (hmove : y.move m = some z) : z.Inv := by
  cases m with
  | push w => exact push_keeps_inv h hmove
  | popRes => exact popRes_keeps_inv h hmove
  | readStatus => exact readStatus_keeps_inv h hmove
  | reset sh => obtain rfl := move_reset.mp hmove; exact start_sysInv sh
  | block => exact block_keeps_inv h hmove
  | popPulse => exact popPulse_keeps_inv h hmove

theorem Sys.Reachable.inv (h : y.Reachable) : y.Inv := by
  obtain ⟨sh, ms, hrun⟩ := h
  exact run_keeps move_keeps_inv hrun (start_sysInv sh)

/-! ### What the invariants say -/

/-- With EMIT = 0 nothing is to come, so all pulses are on PULSE or popped. -/
theorem Sys.Inv.handed_over (h : y.Inv) (h0 : y.block.emit = 0) :
    y.sent ++ y.block.pulse = encodeManyPulses hw y.acc := by
  have hstream := Sys.streamLaw_iff.mp h.stream
  rwa [pendingPulses_of_zero hw h0, List.append_nil] at hstream

theorem Sys.Inv.sent_of_drained (h : y.Inv) (h0 : y.block.emit = 0) (hpulse : y.block.pulse = []) :
    y.sent = encodeManyPulses hw y.acc := by
  have hover := h.handed_over h0
  rwa [hpulse, List.append_nil] at hover

theorem Sys.Inv.taken_of_cmd_nil (h : y.Inv) (hcmd : y.block.cmd = []) : y.taken = y.pushed := by
  have horder : y.pushed = y.taken ++ y.block.cmd := h.words.order
  rw [horder, hcmd, List.append_nil]

/-- The observation of the words `ws`, all taken and all pulses popped (R125). -/
def observationOf (ws : List Word) : Observation :=
  ⟨(decodeStream 0 ws).flatMap (instrResults hw), encodeManyPulses hw ((decodeStream 0 ws).flatMap instrColors),
    (decodeStream 0 ws).any instrIsReserved⟩

theorem Sys.Inv.observe_of_final {p : Partners} (h : y.Inv) (hf : y.Final p) :
    y.observe = observationOf p.program := by
  obtain ⟨hwritten, hcmd, -, h0, hpulse⟩ := hf
  obtain ⟨-, -, hcolors, hresults, hill⟩ := h.words
  have htaken : y.taken = p.program := (h.taken_of_cmd_nil hcmd).trans hwritten
  have hsent : y.sent = encodeManyPulses hw y.acc := h.sent_of_drained h0 hpulse
  rw [Sys.observe, observationOf, ← htaken, ← hresults, ← hcolors, ← hill, ← hsent]

end Sys2Proof.Machine

open Sys2Proof Sys2Proof.Machine

/-- Settles O26: one lemma for each move; the block's move takes a word or pushes a pulse. -/
theorem everyMoveKeepsSystemInvariants : Obligations.EveryMoveKeepsSystemInvariants := move_keeps_inv

/-- Settles O27: the stream law is one of the invariants. -/
theorem streamLawHoldsWhenReachable : Obligations.StreamLawHoldsWhenReachable := fun _ h => h.inv.stream

/-- Settles O28: the word law is one of the invariants. -/
theorem outputsFollowFromWordsTaken : Obligations.OutputsFollowFromWordsTaken := fun _ h => h.inv.words

/-- Settles O29: at a final state every word has been taken and every pulse popped. -/
theorem finalObservationIsDetermined : Obligations.FinalObservationIsDetermined := fun _ _ h hf =>
  h.inv.observe_of_final hf

/-- Settles O30: BUSY = 0 means EMIT = 0. -/
theorem notBusyMeansHandedOver : Obligations.NotBusyMeansHandedOver := by
  intro y h hbusy
  have h0 : y.block.emit = 0 := by
    rw [busy, decide_eq_false_iff_not, not_or, not_not, not_not] at hbusy
    exact hbusy.2
  exact ⟨h.inv.handed_over h0, h.inv.taken_of_cmd_nil⟩

end

section
/-! PROOF. SHIFT is not observed until a colour is loaded (R20, R114): changing it while EMIT = 0 commutes with
every move. -/

namespace Sys2Proof.Machine

/-- The same state with another SHIFT. -/
def State.withShift (s : State) (sh : Wire) : State := { s with shift := sh }

/-- The same system with another SHIFT. -/
def Sys.withShift (y : Sys) (sh : Wire) : Sys := { y with block := y.block.withShift sh }

variable {y z y' : Sys} {s t : State} {sh : Wire} {i : Instr} {w : Word} {rest : List Word}

/-! ### The relation in terms of one changed field -/

theorem State.sameButShift_refl (s : State) : s.SameButShift s := ⟨rfl, fun _ => rfl⟩

theorem Sys.sameButShift_refl (y : Sys) : y.SameButShift y := ⟨y.block.sameButShift_refl, rfl⟩

theorem Sys.sameButShift_withShift (h0 : y.block.emit = 0) (sh : Wire) : y.SameButShift (y.withShift sh) :=
  ⟨⟨rfl, fun h => absurd h0 h⟩, rfl⟩

/-- States that agree but for SHIFT. -/
theorem State.eq_withShift (h : { s with shift := 0 } = { t with shift := 0 }) : t = s.withShift t.shift := by
  cases s
  cases t
  simp only [State.mk.injEq, true_and] at h
  obtain ⟨rfl, rfl, rfl, rfl, rfl, rfl⟩ := h
  rfl

/-- Two systems that cannot be told apart are equal, or no step reads the one field in which they differ. -/
theorem Sys.SameButShift.cases (h : y.SameButShift z) :
    y = z ∨ (y.block.emit = 0 ∧ ∃ sh, z = y.withShift sh) := by
  obtain ⟨⟨hblock, hshift⟩, hsys⟩ := h
  have hz : z = y.withShift z.block.shift := by
    cases y
    cases z
    simp only [Sys.mk.injEq, true_and] at hsys
    obtain ⟨rfl, rfl, rfl, rfl, rfl, rfl⟩ := hsys
    rw [Sys.withShift, ← State.eq_withShift hblock]
  by_cases h0 : y.block.emit = 0
  · exact .inr ⟨h0, _, hz⟩
  · rw [← hshift h0] at hz
    exact .inl hz.symm

/-! ### Each move, with another SHIFT that no step reads -/

/-- An instruction overwrites SHIFT or leaves it alone; it never reads it. -/
theorem accepted_sameButShift (h0 : s.emit = 0) (sh : Wire) :
    (s.accepted i rest).SameButShift ((s.withShift sh).accepted i rest) := by
  cases i with
  | hsv2rgb a b c => exact ⟨rfl, fun h => absurd h0 h⟩
  | encode x => exact State.sameButShift_refl _
  | encodeMany n => exact ⟨rfl, fun h => absurd h0 h⟩
  | data x => exact State.sameButShift_refl _
  | reserved v => exact ⟨rfl, fun h => absurd h0 h⟩

theorem resReady_withShift : resReady (s.withShift sh) i = resReady s i := by cases i <;> rfl

theorem block_withShift (h0 : y.block.emit = 0) (hmove : y.move .block = some y') (sh : Wire) :
    ∃ z', (y.withShift sh).move .block = some z' ∧ y'.SameButShift z' := by
  have hle : y.block.emit ≤ 24 := by rw [h0]; decide
  obtain ⟨w, rest, ha, hy'⟩ | ⟨he, -⟩ := move_block_cases hle hmove
  case inr => exact absurd h0 he.emit
  have hready : resReady (y.withShift sh).block (decode y.block.collect w) = true :=
    resReady_withShift.trans ha.ready
  refine ⟨_, move_block_of_accept (y := y.withShift sh) h0 ha.cmd hready, ?_⟩
  rw [ha.next] at hy'
  rw [hy']
  exact ⟨accepted_sameButShift h0 sh, rfl⟩

theorem move_withShift {m : Move} (h0 : y.block.emit = 0) (hmove : y.move m = some y') (sh : Wire) :
    ∃ z', (y.withShift sh).move m = some z' ∧ y'.SameButShift z' := by
  cases m with
  | push w =>
    obtain ⟨q, hq, rfl⟩ := move_push.mp hmove
    exact ⟨_, move_push.mpr ⟨q, hq, rfl⟩, ⟨rfl, fun h => absurd h0 h⟩, rfl⟩
  | popRes =>
    obtain ⟨w, q, hq, rfl⟩ := move_popRes.mp hmove
    exact ⟨_, move_popRes.mpr ⟨w, q, hq, rfl⟩, ⟨rfl, fun h => absurd h0 h⟩, rfl⟩
  | readStatus =>
    obtain rfl := move_readStatus.mp hmove
    exact ⟨_, move_readStatus.mpr rfl, ⟨rfl, fun h => absurd h0 h⟩, rfl⟩
  | reset sh' =>
    obtain rfl := move_reset.mp hmove
    exact ⟨_, move_reset.mpr rfl, Sys.sameButShift_refl _⟩
  | block => exact block_withShift h0 hmove sh
  | popPulse =>
    obtain ⟨p, q, hq, rfl⟩ := move_popPulse.mp hmove
    exact ⟨_, move_popPulse.mpr ⟨p, q, hq, rfl⟩, ⟨rfl, fun h => absurd h0 h⟩, rfl⟩

theorem Sys.SameButShift.move {m : Move} (h : y.SameButShift z) (hmove : y.move m = some y') :
    ∃ z', z.move m = some z' ∧ y'.SameButShift z' := by
  obtain rfl | ⟨h0, sh, rfl⟩ := h.cases
  · exact ⟨y', hmove, Sys.sameButShift_refl y'⟩
  · exact move_withShift h0 hmove sh

/-! ### Runs and observations -/

theorem Sys.SameButShift.run {ms : List Move} (h : y.SameButShift z) (hrun : Sys.run ms y = some y') :
    ∃ z', Sys.run ms z = some z' ∧ y'.SameButShift z' := by
  induction ms generalizing y z with
  | nil => cases hrun; exact ⟨z, rfl, h⟩
  | cons m ms ih =>
    rw [Sys.run] at hrun
    split at hrun
    case h_2 => cases hrun
    case h_1 u hu =>
      obtain ⟨v, hv, huv⟩ := h.move hu
      rw [run_cons hv]
      exact ih huv hrun

theorem Sys.SameButShift.observe_eq (h : y.SameButShift z) :
    y.observe = z.observe ∧ status y.block = status z.block := by
  obtain rfl | ⟨-, sh, rfl⟩ := h.cases <;> exact ⟨rfl, rfl⟩

end Sys2Proof.Machine

open Sys2Proof Sys2Proof.Machine

/-- Settles O38: a SHIFT that is not read stays so under every move, so two resets start runs that agree. -/
theorem resetValueOfShiftIsNeverObserved : Obligations.ResetValueOfShiftIsNeverObserved := by
  refine ⟨fun _ _ _ _ h hmove => h.move hmove, fun a b ms y hrun => ?_⟩
  have hstart : (Sys.start a).SameButShift (Sys.start b) := Sys.sameButShift_withShift rfl b
  obtain ⟨z, hz, hyz⟩ := hstart.run hrun
  exact ⟨z, hz, hyz, hyz.observe_eq⟩

end

section
/-! PROOF. Where the block waits (R126), which end states there are (R125, R126, log 23), and that a full RES blocks
every later word (R123). -/

namespace Sys2Proof.Machine

variable {s : State} {y z : Sys} {p : Partners} {w : Word} {rest : List Word}

/-! ### The waiting states -/

/-- Only HSV2RGB waits for room on RES (R89). -/
theorem resReady_false_iff {i : Instr} :
    resReady s i = false ↔ (∃ h sat v, i = .hsv2rgb h sat v) ∧ hw.resDepth ≤ s.res.length := by
  cases i with
  | hsv2rgb h sat v => exact hw_res_full_iff.trans (iff_and_self.mpr fun _ => ⟨h, sat, v, rfl⟩)
  | encode x => simp [resReady]
  | encodeMany n => simp [resReady]
  | data x => simp [resReady]
  | reserved w => simp [resReady]

/-- With EMIT = 0 the block is ready exactly when its oldest word is. -/
theorem blockEnabled_of_cmd (h0 : s.emit = 0) (hcmd : s.cmd = w :: rest) :
    blockEnabled s = resReady s (decode s.collect w) := by
  have hemit : emitEnabled s = false := Bool.eq_false_iff.mpr fun he => emitEnabled_emit he h0
  rw [blockEnabled, hemit, Bool.or_false, acceptEnabled_of_cmd h0 hcmd]

/-- With EMIT not 0 the block is ready exactly when PULSE has room. -/
theorem blockEnabled_of_emit_ne (h0 : s.emit ≠ 0) : blockEnabled s = hasRoom hw.pulseDepth s.pulse := by
  have haccept : acceptEnabled s = false := Bool.eq_false_iff.mpr fun ha => h0 (acceptEnabled_emit ha)
  rw [blockEnabled, haccept, Bool.false_or, emitEnabled, decide_eq_true h0, Bool.true_and]

theorem awaitsRes_of_cmd (h0 : s.emit = 0) (hcmd : s.cmd = w :: rest) :
    s.AwaitsRes ↔ blockEnabled s = false := by
  rw [blockEnabled_of_cmd h0 hcmd, resReady_false_iff, State.AwaitsRes, fetch_of_cmd h0 hcmd]
  simp only [Option.some.injEq, h0, true_and]

theorem State.AwaitsRes.cmd_ne_nil (h : s.AwaitsRes) : s.cmd ≠ [] := by
  obtain ⟨-, ⟨_, _, _, hf⟩, -⟩ := h
  obtain ⟨-, w, rest, hcmd, -⟩ := fetch_eq_some.mp hf
  rw [hcmd]
  exact List.cons_ne_nil w rest

theorem State.AwaitsRes.not_enabled (h : s.AwaitsRes) : blockEnabled s = false := by
  obtain ⟨w, rest, hcmd⟩ := List.exists_cons_of_ne_nil h.cmd_ne_nil
  exact (awaitsRes_of_cmd h.1 hcmd).mp h

theorem State.AwaitsRes.res_ne_nil (h : s.AwaitsRes) : s.res ≠ [] := by
  have hfull : hw.resDepth ≤ s.res.length := h.2.2
  exact List.ne_nil_of_length_pos (hw_resDepth_pos.trans hfull)

theorem State.AwaitsPulse.pulse_ne_nil (h : s.AwaitsPulse) : s.pulse ≠ [] :=
  List.ne_nil_of_length_pos (hw_pulseDepth_pos.trans h.2)

/-- A block step is not enabled exactly in the four kinds of waiting state (R126). -/
theorem not_enabled_iff :
    blockEnabled s = false ↔ s.Idle ∨ s.AwaitsData ∨ s.AwaitsRes ∨ s.AwaitsPulse := by
  constructor
  · intro h
    by_cases h0 : s.emit = 0
    · cases hcmd : s.cmd with
      | nil =>
        by_cases hc : s.collect = 0
        · exact .inl ⟨h0, hc, hcmd⟩
        · exact .inr (.inl ⟨h0, hc, hcmd⟩)
      | cons w rest => exact .inr (.inr (.inl ((awaitsRes_of_cmd h0 hcmd).mpr h)))
    · rw [blockEnabled_of_emit_ne h0, hw_pulse_full_iff] at h
      exact .inr (.inr (.inr ⟨h0, h⟩))
  · rintro (⟨h0, -, hcmd⟩ | ⟨h0, -, hcmd⟩ | hres | ⟨h0, hfull⟩)
    · exact blockEnabled_of_cmd_nil h0 hcmd
    · exact blockEnabled_of_cmd_nil h0 hcmd
    · exact hres.not_enabled
    · rw [blockEnabled_of_emit_ne h0, hw_pulse_full_iff]
      exact hfull

/-! ### Final and stuck systems -/

theorem State.Done.idle (h : s.Done) : s.Idle := ⟨h.2.2.1, h.2.1, h.1⟩

theorem Sys.Stuck.waits (h : y.Stuck p) :
    y.AllWritten p ∧ (y.block.AwaitsData ∨ y.block.AwaitsRes ∨ y.block.AwaitsPulse) := by
  obtain ⟨hall, hdata⟩ | ⟨hall, hres, -⟩ | ⟨hall, hpulse, -⟩ := h
  · exact ⟨hall, .inl hdata⟩
  · exact ⟨hall, .inr (.inl hres)⟩
  · exact ⟨hall, .inr (.inr hpulse)⟩

/-- R126: a stuck state is no final state. -/
theorem Sys.Final.not_stuck (hf : y.Final p) : ¬ y.Stuck p := by
  obtain ⟨-, hcmd, hc, h0, -⟩ := hf
  rintro hs
  obtain ⟨-, ⟨-, hopen, -⟩ | hres | ⟨hne, -⟩⟩ := hs.waits
  · exact hopen hc
  · exact hres.cmd_ne_nil hcmd
  · exact hne h0

theorem waits_of_final_or_stuck (h : y.Final p ∨ y.Stuck p) :
    blockEnabled y.block = false ∧ y.pushed = p.program := by
  obtain ⟨hall, hdone⟩ | hs := h
  · exact ⟨not_enabled_iff.mpr (.inl hdone.idle), hall⟩
  · exact ⟨not_enabled_iff.mpr (.inr hs.waits.2), hs.waits.1⟩

/-! ### Halted systems -/

theorem Sys.Halted.not_enabled (h : y.Halted p) (hle : y.block.emit ≤ 24) : blockEnabled y.block = false :=
  Bool.eq_false_iff.mpr fun he => h .block (ready_block hle he)

theorem Sys.Halted.hostReads (h : y.Halted p) (hres : y.block.res ≠ []) : p.hostReads = false :=
  Bool.eq_false_iff.mpr fun hp => h .read (ready_read hp hres)

theorem Sys.Halted.consumerPops (h : y.Halted p) (hpulse : y.block.pulse ≠ []) : p.consumerPops = false :=
  Bool.eq_false_iff.mpr fun hp => h .pop (ready_pop hp hpulse)

theorem Sys.Halted.cmd_full (h : y.Halted p) (hp : y.pushed <+: p.program) (hall : ¬ y.AllWritten p) :
    hw.cmdDepth ≤ y.block.cmd.length :=
  Nat.not_lt.mp fun hlt => h .write (ready_write hp hall hlt)

theorem Sys.Halted.cases_of_allWritten (h : y.Halted p) (hle : y.block.emit ≤ 24) (hall : y.AllWritten p) :
    y.Final p ∨ y.Stuck p ∨ y.Unpopped p := by
  obtain hidle | hdata | hres | hpulse := not_enabled_iff.mp (h.not_enabled hle)
  · by_cases hempty : y.block.pulse = []
    · obtain ⟨h0, hc, hcmd⟩ := hidle
      exact .inl ⟨hall, hcmd, hc, h0, hempty⟩
    · exact .inr (.inr ⟨hall, hidle, hempty, h.consumerPops hempty⟩)
  · exact .inr (.inl (.inl ⟨hall, hdata⟩))
  · exact .inr (.inl (.inr (.inl ⟨hall, hres, h.hostReads hres.res_ne_nil⟩)))
  · exact .inr (.inl (.inr (.inr ⟨hall, hpulse, h.consumerPops hpulse.pulse_ne_nil⟩)))

/-- Where words are still to be written CMD is full, so the block waits for room and not for a word. -/
theorem Sys.Halted.unwritten (h : y.Halted p) (hle : y.block.emit ≤ 24) (hp : y.pushed <+: p.program)
    (hall : ¬ y.AllWritten p) : y.Unwritten p := by
  have hfull : hw.cmdDepth ≤ y.block.cmd.length := h.cmd_full hp hall
  have hne : y.block.cmd ≠ [] := List.ne_nil_of_length_pos (hw_cmdDepth_pos.trans hfull)
  obtain ⟨-, -, hcmd⟩ | ⟨-, -, hcmd⟩ | hres | hpulse := not_enabled_iff.mp (h.not_enabled hle)
  · exact absurd hcmd hne
  · exact absurd hcmd hne
  · exact ⟨hall, hfull, .inl ⟨hres, h.hostReads hres.res_ne_nil⟩⟩
  · exact ⟨hall, hfull, .inr ⟨hpulse, h.consumerPops hpulse.pulse_ne_nil⟩⟩

theorem Sys.Halted.cases (h : y.Halted p) (hle : y.block.emit ≤ 24) (hp : y.pushed <+: p.program) :
    y.Final p ∨ y.Stuck p ∨ y.Unpopped p ∨ y.Unwritten p := by
  by_cases hall : y.AllWritten p
  · obtain hf | hs | hu := h.cases_of_allWritten hle hall
    · exact .inl hf
    · exact .inr (.inl hs)
    · exact .inr (.inr (.inl hu))
  · exact .inr (.inr (.inr (h.unwritten hle hp hall)))

/-! ### A full RES -/

/-- What stays so while RES is full: no word is taken, and CMD grows at its end only. -/
structure Sys.BlockedFrom (y z : Sys) : Prop where
  awaits : z.block.AwaitsRes
  taken : z.taken = y.taken
  cmd : y.block.cmd <+: z.block.cmd

/-- A word pushed behind the head of CMD does not change what the block takes next. -/
theorem fetch_append {i : Instr} (h : fetch s = some i) (w : Word) :
    fetch { s with cmd := s.cmd ++ [w] } = some i := by
  obtain ⟨h0, v, rest, hcmd, rfl⟩ := fetch_eq_some.mp h
  exact fetch_eq_some.mpr ⟨h0, v, rest ++ [w], by rw [hcmd]; rfl, rfl⟩

/-- While RES stays full, no move but a result pop or a reset changes what the block waits for (R123). -/
theorem move_blocked {m : Move} (h : y.block.AwaitsRes) (hmove : y.move m = some z) (hpop : m ≠ .popRes)
    (hreset : ∀ sh, m ≠ .reset sh) : y.BlockedFrom z := by
  cases m with
  | push w =>
    obtain ⟨q, hq, rfl⟩ := move_push.mp hmove
    obtain ⟨-, rfl⟩ := chanPush_eq_some.mp hq
    obtain ⟨h0, ⟨a, b, c, hf⟩, hfull⟩ := h
    exact ⟨⟨h0, ⟨a, b, c, fetch_append hf w⟩, hfull⟩, rfl, List.prefix_append _ _⟩
  | popRes => exact absurd rfl hpop
  | readStatus => obtain rfl := move_readStatus.mp hmove; exact ⟨h, rfl, List.prefix_refl _⟩
  | reset sh => exact absurd rfl (hreset sh)
  | block =>
    obtain ⟨hb, -⟩ := move_block.mp hmove
    rw [h.not_enabled] at hb
    cases hb
  | popPulse =>
    obtain ⟨p, q, -, rfl⟩ := move_popPulse.mp hmove
    exact ⟨h, rfl, List.prefix_refl _⟩

theorem run_blocked {ms : List Move} (h : y.block.AwaitsRes) (hrun : Sys.run ms y = some z)
    (hms : ∀ m ∈ ms, m ≠ .popRes ∧ ∀ sh, m ≠ .reset sh) : y.BlockedFrom z := by
  induction ms generalizing y with
  | nil => cases hrun; exact ⟨h, rfl, List.prefix_refl _⟩
  | cons m ms ih =>
    rw [Sys.run] at hrun
    split at hrun
    case h_2 => cases hrun
    case h_1 u hu =>
      obtain ⟨hm, hms⟩ := List.forall_mem_cons.mp hms
      obtain ⟨hawaits, htaken, hcmd⟩ := move_blocked h hu hm.1 hm.2
      obtain ⟨hawaits', htaken', hcmd'⟩ := ih hawaits hrun hms
      exact ⟨hawaits', htaken'.trans htaken, hcmd.trans hcmd'⟩

end Sys2Proof.Machine

open Sys2Proof Sys2Proof.Machine

/-- Settles O39: the waiting states by EMIT, CMD and COLLECT, and the halted systems by what their block waits
for. -/
theorem waitingStatesAreClassified : Obligations.WaitingStatesAreClassified :=
  ⟨fun _ => not_enabled_iff, fun _ h => h.res_ne_nil, fun _ h => h.pulse_ne_nil, fun _ _ hf => hf.not_stuck,
    fun _ _ => waits_of_final_or_stuck, fun _ _ hle hp h => h.cases hle hp⟩

/-- Settles O40: every move keeps the head of CMD, the full RES and the words taken. -/
theorem unreadResultsBlockLaterWords : Obligations.UnreadResultsBlockLaterWords := by
  intro ms y z h hrun hms
  obtain ⟨hawaits, htaken, later, hcmd⟩ := run_blocked h hrun hms
  exact ⟨hawaits, htaken, later, hcmd.symm⟩

end

section
/-! PROOF. Delivery (R90, R93): each pulse pushed and popped at once, one colour at a time, and a list of colours by
induction. -/

namespace Sys2Proof.Machine

variable {y z : Sys} {w : Word} {x : Color} {xs : List Color} {ms : List Move}

/-! ### Draining -/

/-- The system after its pending pulses have been pushed and popped. -/
def Sys.drained (y : Sys) : Sys :=
  { y with block := { y.block with emit := 0 }, sent := y.sent ++ pendingPulses hw y.block }

/-- The system after one pulse has been pushed on an empty PULSE and popped. -/
def Sys.handedOne (y : Sys) : Sys :=
  { y with block := { y.block with emit := y.block.emit - 1 },
           sent := y.sent ++ [pulseOf hw (y.block.shift.getLsbD (y.block.emit.toNat - 1))] }

theorem run_block_popPulse (h0 : y.block.emit ≠ 0) (hle : y.block.emit ≤ 24) (hpulse : y.block.pulse = []) :
    Sys.run (.block :: .popPulse :: ms) y = Sys.run ms y.handedOne := by
  have hroom : hasRoom hw.pulseDepth y.block.pulse = true := by rw [hpulse]; rfl
  have hnext : y.block.emitted.pulse = [pulseOf hw (y.block.shift.getLsbD (y.block.emit.toNat - 1))] := by
    rw [emitted_pulse, hpulse, List.nil_append]
  rw [run_cons (move_block_of_emit h0 hle hroom), run_cons (move_popPulse.mpr ⟨_, _, hnext, rfl⟩)]
  congr 1
  rw [Sys.handedOne, ← hpulse]
  rfl

theorem run_drainMoves (hle : y.block.emit.toNat ≤ 24) (hpulse : y.block.pulse = []) :
    Sys.run (drainMoves y.block.emit.toNat) y = some y.drained := by
  generalize hn : y.block.emit.toNat = n
  induction n generalizing y with
  | zero =>
    have h0 : y.block.emit = 0 := BitVec.eq_of_toNat_eq hn
    rw [drainMoves, run_nil, Sys.drained, pendingPulses_of_zero hw h0, List.append_nil, ← h0]
  | succ n ih =>
    have h0 : y.block.emit ≠ 0 := by
      intro h
      rw [h] at hn
      cases hn
    have hpred : (y.block.emit - 1).toNat = n := by
      have := emit_toNat_pred h0
      omega
    have hpending := pendingPulses_of_pos hw (t := y.handedOne.block) h0 rfl rfl
    rw [drainMoves, run_block_popPulse h0 hle hpulse, ih (y := y.handedOne) (emit_pred_le h0 hle) hpulse hpred,
      Sys.drained, Sys.drained, hpending, Sys.handedOne, List.append_assoc, List.singleton_append]

/-! ### Taking a word -/

/-- Nothing is under way on the path of the pulses: no word waits, nothing is to come, PULSE is empty. -/
structure Sys.Clear (y : Sys) : Prop where
  emit : y.block.emit = 0
  cmd : y.block.cmd = []
  pulse : y.block.pulse = []

/-- The system after the host has written `w` on an empty CMD. -/
def Sys.wrote (y : Sys) (w : Word) : Sys :=
  { y with block := { y.block with cmd := [w] }, pushed := y.pushed ++ [w] }

/-- The system after the block has taken `w` too. -/
def Sys.took (y : Sys) (w : Word) : Sys :=
  { y.wrote w with block := (y.wrote w).block.accepted (decode y.block.collect w) [],
                   taken := y.taken ++ [w], acc := y.acc ++ instrColors (decode y.block.collect w) }

theorem run_push_block (hy : y.Clear) (hr : resReady y.block (decode y.block.collect w) = true) :
    Sys.run (.push w :: .block :: ms) y = Sys.run ms (y.took w) := by
  have hpush : chanPush hw.cmdDepth y.block.cmd w = some [w] := by rw [hy.cmd]; rfl
  have hwrote : y.move (.push w) = some (y.wrote w) := move_push.mpr ⟨[w], hpush, rfl⟩
  have hready : resReady (y.wrote w).block (decode y.block.collect w) = true := by
    rw [← hr]
    cases decode y.block.collect w <;> rfl
  rw [run_cons hwrote, run_cons (move_block_of_accept (y := y.wrote w) hy.emit rfl hready)]
  rfl

/-! ### One colour -/

/-- The run from `y` to `z` has handed over the pulses of `xs`, and nothing else shows. -/
structure Sys.Delivers (y : Sys) (xs : List Color) (z : Sys) : Prop where
  clear : z.Clear
  sent : z.sent = y.sent ++ encodeManyPulses hw xs
  res : z.block.res = y.block.res
  ill : z.block.ill = y.block.ill

theorem Sys.Delivers.refl (hy : y.Clear) : y.Delivers [] y := ⟨hy, (List.append_nil _).symm, rfl, rfl⟩

theorem Sys.Delivers.trans {u : Sys} {ys : List Color} (h : y.Delivers xs z) (h' : z.Delivers ys u) :
    y.Delivers (xs ++ ys) u where
  clear := h'.clear
  sent := by rw [h'.sent, h.sent, encodeManyPulses_append, List.append_assoc]
  res := h'.res.trans h.res
  ill := h'.ill.trans h.ill

/-- An instruction that carries a colour gives no result and raises nothing. -/
theorem instr_of_color {i : Instr} (hx : instrColors i = [x]) (s : State) :
    resReady s i = true ∧ instrResults hw i = [] ∧ instrIsReserved i = false := by
  cases i with
  | hsv2rgb a b c => cases hx
  | encode x => exact ⟨rfl, rfl, rfl⟩
  | encodeMany n => cases hx
  | data x => exact ⟨rfl, rfl, rfl⟩
  | reserved w => cases hx

/-- A colour's word is written and taken, and its 24 pulses are handed over. -/
theorem run_colorMoves (hy : y.Clear) (hx : instrColors (decode y.block.collect w) = [x]) :
    ∃ z, Sys.run (colorMoves w ++ ms) y = Sys.run ms z ∧ y.Delivers [x] z ∧
      z.block.collect = nextCollect y.block.collect w := by
  obtain ⟨hready, hres, hill⟩ := instr_of_color hx y.block
  obtain ⟨hshift, hemit⟩ := accepted_of_color (s := (y.wrote w).block) (rest := []) hx
  have hpulse : (y.took w).block.pulse = [] := accepted_pulse.trans hy.pulse
  have hemit24 : (y.took w).block.emit.toNat = 24 := congrArg BitVec.toNat hemit
  have hdrain : Sys.run (drainMoves 24) (y.took w) = some (y.took w).drained := by
    rw [← hemit24]
    exact run_drainMoves hemit24.le hpulse
  have hpending : pendingPulses hw (y.took w).block = encodeManyPulses hw [x] := by
    rw [← hx]
    exact pendingPulses_accepted hw hy.emit
  refine ⟨(y.took w).drained, ?_, ⟨⟨rfl, accepted_cmd, hpulse⟩, ?_, ?_, ?_⟩, accepted_collect⟩
  · rw [colorMoves, List.cons_append, List.cons_append, run_push_block hy hready, run_append hdrain]
  · rw [← hpending]
    rfl
  · exact accepted_res.trans (by rw [hres, List.append_nil]; rfl)
  · exact accepted_ill.trans (by rw [hill, Bool.or_false]; rfl)

/-! ### A list of colours -/

/-- Colours delivered one after another: the word of each is decoded as its colour under the COLLECT then present,
which `count` gives as a function of the colours still to come. -/
theorem run_flatMap_colorMoves {f : Color → Word} {count : List Color → Count}
    (hword : ∀ x ys, x :: ys <:+ xs → instrColors (decode (count (x :: ys)) (f x)) = [x] ∧
      nextCollect (count (x :: ys)) (f x) = count ys)
    (hy : y.Clear) (hc : y.block.collect = count xs) :
    ∃ z, Sys.run (xs.flatMap fun x => colorMoves (f x)) y = some z ∧ y.Delivers xs z ∧
      z.block.collect = count [] := by
  induction xs generalizing y with
  | nil => exact ⟨y, rfl, .refl hy, hc⟩
  | cons x xs ih =>
    obtain ⟨hcolor, hcount⟩ := hword x xs (List.suffix_refl _)
    obtain ⟨u, hu, hyu, hcu⟩ := run_colorMoves (ms := xs.flatMap fun x => colorMoves (f x)) hy
      (by rw [hc]; exact hcolor)
    rw [hc, hcount] at hcu
    obtain ⟨z, hz, huz, hcz⟩ := ih (fun v ys hs => hword v ys (hs.trans (List.suffix_cons x xs))) hyu.clear hcu
    exact ⟨z, hu.trans hz, hyu.trans huz, hcz⟩

/-- An ENCODE word is read as its colour while no count is open, and opens none. -/
theorem encode_word_delivers (x : Color) :
    instrColors (decode 0 (encode (.encode x))) = [x] ∧ nextCollect 0 (encode (.encode x)) = 0 := by
  have hd : decode 0 (encode (.encode x)) = .encode x := decode_encode rfl rfl
  rw [nextCollect, hd]
  exact ⟨rfl, rfl⟩

/-- The COLLECT with `xs` still to come in an open count. -/
def openCount (xs : List Color) : Count := BitVec.ofNat 24 xs.length

theorem toNat_openCount (hlen : xs.length < 2 ^ 24) : (openCount xs).toNat = xs.length := by
  rw [openCount, BitVec.toNat_ofNat, Nat.mod_eq_of_lt hlen]

/-- With a colour still to come the count is open. -/
theorem openCount_cons_ne_zero (hlen : (x :: xs).length < 2 ^ 24) : openCount (x :: xs) ≠ 0 := by
  intro h
  have hcount := toNat_openCount hlen
  rw [h] at hcount
  cases hcount

/-- A data word is read as its colour while its count is open, and counts it down. -/
theorem data_word_delivers (hlen : (x :: xs).length < 2 ^ 24) :
    instrColors (decode (openCount (x :: xs)) (encode (.data x))) = [x] ∧
      nextCollect (openCount (x :: xs)) (encode (.data x)) = openCount xs := by
  have hcount : (openCount (x :: xs)).toNat = xs.length + 1 := toNat_openCount hlen
  have hopen : openCount (x :: xs) ≠ 0 := openCount_cons_ne_zero hlen
  refine ⟨by rw [decode_encode_data hopen]; rfl, ?_⟩
  rw [nextCollect_of_open hopen]
  apply BitVec.eq_of_toNat_eq
  rw [toNat_openCount (Nat.lt_of_succ_lt hlen)]
  have := toNat_count_pred hopen
  omega

/-- An ENCODE_MANY header delivers no pulse and opens its count. -/
theorem run_header (hy : y.Clear) (hc : y.block.collect = 0) (n : Count) :
    ∃ z, Sys.run (.push (encode (.encodeMany n)) :: .block :: ms) y = Sys.run ms z ∧ y.Delivers [] z ∧
      z.block.collect = n := by
  have hd : decode y.block.collect (encode (.encodeMany n)) = .encodeMany n := by
    rw [hc, decode_header]
  have hready : resReady y.block (decode y.block.collect (encode (.encodeMany n))) = true := by rw [hd]; rfl
  refine ⟨_, run_push_block hy hready, ?_⟩
  rw [Sys.took, hd]
  exact ⟨⟨⟨hy.emit, rfl, hy.pulse⟩, (List.append_nil _).symm, rfl, rfl⟩, rfl⟩

end Sys2Proof.Machine

open Sys2Proof Sys2Proof.Machine

/-- Settles O31: each turn pushes the pulse of `SHIFT[EMIT - 1]` and pops it, by induction on EMIT. -/
theorem drainDeliversPendingPulses : Obligations.DrainDeliversPendingPulses := fun _ hle hpulse =>
  run_drainMoves hle hpulse

/-- Settles O32: the header opens the count, and each data word delivers its colour and counts it down. -/
theorem encodeManyDeliversAllColors : Obligations.EncodeManyDeliversAllColors := by
  intro y xs hlen hc h0 hcmd hpulse
  obtain ⟨u, hu, hyu, hcu⟩ := run_header (y := y) ⟨h0, hcmd, hpulse⟩ hc (openCount xs)
  obtain ⟨z, hz, huz, hcz⟩ := run_flatMap_colorMoves (f := fun x => encode (.data x))
    (fun x ys hs => data_word_delivers (hs.length_le.trans_lt hlen)) hyu.clear hcu
  obtain ⟨⟨hz0, hzcmd, hzpulse⟩, hsent, hres, hill⟩ := hyu.trans huz
  exact ⟨z, hu.trans hz, hsent, length_encodeManyPulses hw xs, hcz, hz0, hzcmd, hzpulse, hill, hres⟩

/-- Settles O33: COLLECT stays 0, and each ENCODE word delivers its colour. -/
theorem encodeEachDeliversTheSame : Obligations.EncodeEachDeliversTheSame := by
  intro y xs hc h0 hcmd hpulse
  obtain ⟨z, hz, hyz, hcz⟩ := run_flatMap_colorMoves (xs := xs) (y := y) (f := fun x => encode (.encode x))
    (count := fun _ => 0) (fun x _ _ => encode_word_delivers x) ⟨h0, hcmd, hpulse⟩ hc
  obtain ⟨⟨hz0, hzcmd, hzpulse⟩, hsent, hres, hill⟩ := hyz
  exact ⟨z, hz, hsent, hcz, hz0, hzcmd, hzpulse, hill, hres⟩

end

section
/-! PROOF. The codec: which channel bit a pulse carries (R83), the colour read back from its pulses (R81), and
pulses taken in chunks (R84). -/

namespace Sys2Proof.Machine

variable (c : Config) (x : Color)

/-! ### Pulses and channels -/

/-- The bits of a channel are the bits of the wire word from that channel's place on. -/
theorem getLsbD_wireWord_channel {ch : Byte} {start j : Nat} (h : (wireWord x).extractLsb' start 8 = ch) (hj : j < 8) :
    (wireWord x).getLsbD (start + j) = ch.getLsbD j := by
  rw [← h, BitVec.getLsbD_extractLsb', decide_eq_true hj, Bool.true_and]

/-- Pulse `8 * i + j` of a colour carries bit `7 - j` of the channel at place `i` (R83). -/
theorem getElem?_encodePulses_channel {ch : Byte} {i j : Nat} (hi : [x.g, x.r, x.b][i]? = some ch) (hj : j < 8) :
    (encodePulses c x)[8 * i + j]? = some (pulseOf c (ch.getLsbD (7 - j))) := by
  have hlt : i < 3 := (List.getElem?_eq_some_iff.mp hi).1
  have hchannel : (wireWord x).extractLsb' (16 - 8 * i) 8 = ch := by
    interval_cases i
    · rw [← Option.some.inj hi]; exact extractLsb'_wireWord_g x
    · rw [← Option.some.inj hi]; exact extractLsb'_wireWord_r x
    · rw [← Option.some.inj hi]; exact extractLsb'_wireWord_b x
  have hbit : 23 - (8 * i + j) = (16 - 8 * i) + (7 - j) := by omega
  rw [getElem?_encodePulses c x (by omega), hbit, getLsbD_wireWord_channel x hchannel (by omega)]

/-! ### Reading a colour back -/

variable {c}

/-- On a well-formed configuration a pulse is `P1` exactly for a 1 bit (R9 condition 2, R81). -/
theorem pulseOf_eq_p1_iff (h : c.wf = true) (b : Bool) : pulseOf c b = c.p1 ↔ b = true := by
  cases b with
  | true => exact iff_of_true rfl rfl
  | false => exact iff_of_false (p0_ne_p1 h) Bool.false_ne_true

/-- One pulse read: the bits read so far move up and the pulse's bit comes in below. -/
theorem shift_in_bit (v : Wire) {k : Nat} (hk : k < 24) :
    (v >>> (24 - k)) <<< 1 ||| (if v.getLsbD (23 - k) = true then 1 else 0) = v >>> (24 - (k + 1)) := by
  have hplace : 24 - (k + 1) = 23 - k := by omega
  apply BitVec.eq_of_getLsbD_eq
  intro j hj
  rw [BitVec.getLsbD_or, BitVec.getLsbD_shiftLeft, BitVec.getLsbD_ushiftRight, BitVec.getLsbD_ushiftRight, hplace]
  cases j with
  | zero => cases v.getLsbD (23 - k) <;> simp
  | succ j =>
    have hold : 24 - k + j = 23 - k + (j + 1) := by omega
    cases v.getLsbD (23 - k) <;> simp [hold, hj]

/-- After `k` pulses of a colour, the top `k` bits of its wire word have been read. -/
theorem wireOfPulses_take (h : c.wf = true) {k : Nat} (hk : k ≤ 24) :
    wireOfPulses c ((List.range k).map fun k => pulseOf c ((wireWord x).getLsbD (23 - k))) =
      wireWord x >>> (24 - k) := by
  induction k with
  | zero => exact (BitVec.ushiftRight_eq_zero (Nat.le_refl 24)).symm
  | succ k ih =>
    rw [List.range_succ, List.map_append, wireOfPulses, List.foldl_append, ← wireOfPulses,
      ih (Nat.le_of_succ_le hk), ← shift_in_bit _ hk]
    simp only [List.map_cons, List.map_nil, List.foldl_cons, List.foldl_nil, pulseOf_eq_p1_iff h]

theorem colorOfWire_wireWord : colorOfWire (wireWord x) = x := by
  rw [colorOfWire, extractLsb'_wireWord_g, extractLsb'_wireWord_r, extractLsb'_wireWord_b]

theorem decode24_encodePulses (h : c.wf = true) : decode24 c (encodePulses c x) = x := by
  rw [decode24, encodePulses, wireOfPulses_take x h (Nat.le_refl 24), Nat.sub_self, BitVec.ushiftRight_zero,
    colorOfWire_wireWord]

/-! ### Chunks -/

theorem chunksOf_flatten {fuel n : Nat} {ps : List Pulse} (hn : 0 < n) (hfuel : ps.length ≤ fuel) :
    (chunksOf fuel n ps).flatten = ps := by
  induction fuel generalizing ps with
  | zero =>
    obtain rfl := List.eq_nil_of_length_eq_zero (Nat.le_zero.mp hfuel)
    rfl
  | succ fuel ih =>
    cases ps with
    | nil => rfl
    | cons p ps =>
      have hdrop : ((p :: ps).drop n).length ≤ fuel := by
        rw [List.length_drop]
        omega
      rw [chunksOf, List.flatten_cons, ih hdrop, List.take_append_drop]
      exact List.cons_ne_nil p ps

theorem length_of_mem_chunksOf {fuel n : Nat} {ps ch : List Pulse} (hn : 0 < n) (hch : ch ∈ chunksOf fuel n ps) :
    0 < ch.length ∧ ch.length ≤ n := by
  induction fuel generalizing ps with
  | zero => cases ps <;> cases hch
  | succ fuel ih =>
    cases ps with
    | nil => cases hch
    | cons p ps =>
      obtain rfl | hrest := List.mem_cons.mp hch
      · rw [List.length_take, List.length_cons]
        omega
      · exact ih hrest

end Sys2Proof.Machine

open Sys2Proof Sys2Proof.Machine

/-- Settles O43: the pulses of channel `k / 8` begin at index `8 * (k / 8)`, its top bit first. -/
theorem pulseIndexMapsToChannelBit : Obligations.PulseIndexMapsToChannelBit := by
  intro c x k ch hch
  have hpulse := getElem?_encodePulses_channel c x hch (Nat.mod_lt k (by decide : 0 < 8))
  rwa [Nat.div_add_mod] at hpulse

/-- Settles O45: a function with a left inverse is injective. -/
theorem decodeOfPulsesGivesColorBack : Obligations.DecodeOfPulsesGivesColorBack := fun c h =>
  ⟨fun x => decode24_encodePulses x h, Function.LeftInverse.injective fun x => decode24_encodePulses (c := c) x h⟩

/-- Settles O46: this block's consumer takes chunks of `max 1 CHUNK_CAP`. -/
theorem chunkingKeepsTheSequence : Obligations.ChunkingKeepsTheSequence := by
  refine ⟨fun n fuel ps hn hfuel => ⟨chunksOf_flatten hn hfuel, fun ch => length_of_mem_chunksOf hn⟩,
    fun p ps => ?_⟩
  have hpos : 0 < max 1 p.chunkCap := Nat.lt_of_lt_of_le Nat.one_pos (Nat.le_max_left 1 p.chunkCap)
  refine ⟨chunksOf_flatten hpos (Nat.le_refl _), fun ch hch => ?_⟩
  obtain ⟨hne, hle⟩ := length_of_mem_chunksOf hpos hch
  refine ⟨hne, fun hcap => ?_⟩
  rwa [Nat.max_eq_right hcap] at hle

end

section
/-! PROOF. The reference HSV to RGB algorithm: its regions (R74), its bounds (R71, R73), and its quantities in 16-bit
arithmetic (R66, R71). -/

namespace Sys2Proof.Machine

variable {h sat v : Byte}

/-! ### Bounds -/

/-- All of `p`, `q` and `t` are the value scaled by a byte over 256 (R66). -/
theorem scaled_le {k : Nat} (v : Byte) (hk : k ≤ 255) :
    v.toNat * k / 256 ≤ v.toNat ∧ v.toNat * k / 256 ≤ 254 := by
  have hv : v.toNat ≤ 255 := Nat.le_of_lt_succ v.isLt
  have h1 : v.toNat * k ≤ v.toNat * 255 := Nat.mul_le_mul_left _ hk
  omega

theorem hsvP_le (sat v : Byte) : hsvP sat v ≤ v.toNat ∧ hsvP sat v ≤ 254 := scaled_le v (Nat.sub_le _ _)

theorem hsvQ_le (h sat v : Byte) : hsvQ h sat v ≤ v.toNat ∧ hsvQ h sat v ≤ 254 := scaled_le v (Nat.sub_le _ _)

theorem hsvT_le (h sat v : Byte) : hsvT h sat v ≤ v.toNat ∧ hsvT h sat v ≤ 254 := scaled_le v (Nat.sub_le _ _)

theorem ofNat_le_of_le {n : Nat} (hn : n ≤ v.toNat) : BitVec.ofNat 8 n ≤ v := by
  rw [BitVec.le_def, BitVec.toNat_ofNat]
  exact (Nat.mod_le n _).trans hn

theorem hsvRegion_le (h : Byte) : hsvRegion h ≤ 5 := by
  have := h.isLt
  rw [hsvRegion]
  omega

/-- The hues of a region are 43 in a row (R74). -/
theorem hsvRegion_eq {k : Nat} (hlo : 43 * k ≤ h.toNat) (hhi : h.toNat < 43 * (k + 1)) : hsvRegion h = k := by
  rw [hsvRegion]
  omega

theorem hsvRemainder_le (h : Byte) : hsvRemainder h ≤ 252 := by
  rw [hsvRemainder, hsvRegion]
  omega

end Sys2Proof.Machine

open Sys2Proof Sys2Proof.Machine

/-- Settles O52: each range of hues is one region. -/
theorem referenceRegionsByHue : Obligations.ReferenceRegionsByHue := by
  intro h sat v hsat
  have hh : h.toNat < 256 := h.isLt
  refine ⟨fun h1 => ?_, fun h1 h2 => ?_, fun h1 h2 => ?_, fun h1 h2 => ?_, fun h1 h2 => ?_, fun h1 => ?_⟩
  · rw [hsvReference, if_neg hsat, hsvRegion_eq (k := 0) (by omega) (by omega)]; rfl
  · rw [hsvReference, if_neg hsat, hsvRegion_eq (k := 1) (by omega) (by omega)]; rfl
  · rw [hsvReference, if_neg hsat, hsvRegion_eq (k := 2) (by omega) (by omega)]; rfl
  · rw [hsvReference, if_neg hsat, hsvRegion_eq (k := 3) (by omega) (by omega)]; rfl
  · rw [hsvReference, if_neg hsat, hsvRegion_eq (k := 4) (by omega) (by omega)]; rfl
  · rw [hsvReference, if_neg hsat, hsvRegion_eq (k := 5) (by omega) (by omega)]; rfl

namespace Sys2Proof.Machine

variable {h sat v : Byte}

/-- No channel of the reference exceeds the value: each is the value, `p`, `q` or `t` (R73). -/
theorem hsvReference_le (h sat v : Byte) :
    (hsvReference h sat v).r ≤ v ∧ (hsvReference h sat v).g ≤ v ∧ (hsvReference h sat v).b ≤ v := by
  have hv : v ≤ v := BitVec.le_refl v
  by_cases hsat : sat = 0
  · subst hsat
    rw [hsvReference_zero_sat]
    exact ⟨hv, hv, hv⟩
  have hp : BitVec.ofNat 8 (hsvP sat v) ≤ v := ofNat_le_of_le (hsvP_le sat v).1
  have hq : BitVec.ofNat 8 (hsvQ h sat v) ≤ v := ofNat_le_of_le (hsvQ_le h sat v).1
  have ht : BitVec.ofNat 8 (hsvT h sat v) ≤ v := ofNat_le_of_le (hsvT_le h sat v).1
  obtain ⟨r0, r1, r2, r3, r4, r5⟩ := referenceRegionsByHue h sat v hsat
  obtain hr | hr | hr | hr | hr | hr : h.toNat ≤ 42 ∨ (43 ≤ h.toNat ∧ h.toNat ≤ 85) ∨
      (86 ≤ h.toNat ∧ h.toNat ≤ 128) ∨ (129 ≤ h.toNat ∧ h.toNat ≤ 171) ∨
      (172 ≤ h.toNat ∧ h.toNat ≤ 214) ∨ 215 ≤ h.toNat := by omega
  · rw [r0 hr]; exact ⟨hv, ht, hp⟩
  · rw [r1 hr.1 hr.2]; exact ⟨hq, hv, hp⟩
  · rw [r2 hr.1 hr.2]; exact ⟨hp, hv, ht⟩
  · rw [r3 hr.1 hr.2]; exact ⟨hp, hq, hv⟩
  · rw [r4 hr.1 hr.2]; exact ⟨ht, hp, hv⟩
  · rw [r5 hr]; exact ⟨hv, hp, hq⟩

/-! ### Sixteen bits -/

/-- A product of two bytes does not overflow 16 bits, and a right shift by 8 is the division by 256 (R66, R71). -/
theorem toNat_scale16 {a b : BitVec 16} (ha : a.toNat ≤ 255) (hb : b.toNat ≤ 255) :
    ((a * b) >>> 8).toNat = a.toNat * b.toNat / 256 := by
  have hmul : a.toNat * b.toNat ≤ 255 * 255 := Nat.mul_le_mul ha hb
  rw [BitVec.toNat_ushiftRight, BitVec.toNat_mul, Nat.shiftRight_eq_div_pow, Nat.mod_eq_of_lt (by omega)]

/-- A byte subtracted from 255 does not go below 0. -/
theorem toNat_sub16 {a : BitVec 16} (ha : a.toNat ≤ 255) : ((255 : BitVec 16) - a).toNat = 255 - a.toNat :=
  BitVec.toNat_sub_of_le ha

theorem toNat_widen (b : Byte) : (b.setWidth 16).toNat = b.toNat :=
  BitVec.toNat_setWidth_of_le (by decide)

/-- The value scaled by 255 less a scaled byte, in 16 bits: the form of `q` and `t`. -/
theorem toNat_scale16_twice {a b d : BitVec 16} (ha : a.toNat ≤ 255) (hb : b.toNat ≤ 255) (hd : d.toNat ≤ 255) :
    ((a * ((255 : BitVec 16) - ((b * d) >>> 8))) >>> 8).toNat = a.toNat * (255 - b.toNat * d.toNat / 256) / 256 := by
  have hmul : b.toNat * d.toNat ≤ 255 * 255 := Nat.mul_le_mul hb hd
  have hinner : ((b * d) >>> 8).toNat = b.toNat * d.toNat / 256 := toNat_scale16 hb hd
  have hsub : ((255 : BitVec 16) - ((b * d) >>> 8)).toNat = 255 - b.toNat * d.toNat / 256 := by
    rw [toNat_sub16 (by omega), hinner]
  rw [toNat_scale16 ha (by omega), hsub]

/-- The remainder in 16 bits is the model's (R66). -/
theorem toNat_remainder16 (h : Byte) :
    ((h.setWidth 16 - (h.setWidth 16 / 43) * 43) * 6 : BitVec 16).toNat = hsvRemainder h := by
  have hh : h.toNat < 256 := h.isLt
  have hregion : (h.setWidth 16 / 43 * 43 : BitVec 16).toNat = h.toNat / 43 * 43 := by
    rw [BitVec.toNat_mul, BitVec.toNat_udiv, toNat_widen]
    exact Nat.mod_eq_of_lt (by change h.toNat / 43 * 43 < 2 ^ 16; omega)
  have hdiff : (h.setWidth 16 - h.setWidth 16 / 43 * 43 : BitVec 16).toNat = h.toNat - h.toNat / 43 * 43 := by
    rw [BitVec.toNat_sub_of_le, toNat_widen, hregion]
    rw [BitVec.le_def, hregion, toNat_widen]
    omega
  rw [BitVec.toNat_mul, hdiff, hsvRemainder, hsvRegion]
  exact Nat.mod_eq_of_lt (by change (h.toNat - h.toNat / 43 * 43) * 6 < 2 ^ 16; omega)

end Sys2Proof.Machine

open Sys2Proof Sys2Proof.Machine

/-- Settles O51: with value 0 the bound leaves every channel 0. -/
theorem referenceChannelsAreAtMostValue : Obligations.ReferenceChannelsAreAtMostValue := by
  refine ⟨fun h sat => ?_, hsvReference_le⟩
  obtain ⟨hr, hg, hb⟩ := hsvReference_le h sat 0
  calc hsvReference h sat 0
      = ⟨(hsvReference h sat 0).r, (hsvReference h sat 0).g, (hsvReference h sat 0).b⟩ := rfl
    _ = ⟨0, 0, 0⟩ := by rw [BitVec.le_zero_iff.mp hr, BitVec.le_zero_iff.mp hg, BitVec.le_zero_iff.mp hb]; rfl

/-- Settles O53: no product of two bytes overflows and no subtraction goes below 0. -/
theorem referenceIsExactAtSixteenBits : Obligations.ReferenceIsExactAtSixteenBits := by
  intro h sat v h' s' v' rem
  have hs : s'.toNat = sat.toNat := toNat_widen sat
  have hv : v'.toNat = v.toNat := toNat_widen v
  have hrem : rem.toNat = hsvRemainder h := toNat_remainder16 h
  have hs255 : s'.toNat ≤ 255 := hs ▸ Nat.le_of_lt_succ sat.isLt
  have hv255 : v'.toNat ≤ 255 := hv ▸ Nat.le_of_lt_succ v.isLt
  have hrem255 : rem.toNat ≤ 255 := by have := hsvRemainder_le h; omega
  have hsubs : ((255 : BitVec 16) - s').toNat = 255 - s'.toNat := toNat_sub16 hs255
  have hsubr : ((255 : BitVec 16) - rem).toNat = 255 - rem.toNat := toNat_sub16 hrem255
  refine ⟨hsvRegion_le h, hsvRemainder_le h, hrem, ?_, ?_, ?_, (hsvP_le sat v).2, (hsvQ_le h sat v).2,
    (hsvT_le h sat v).2⟩
  · rw [toNat_scale16 hv255 (by omega), hsubs, hs, hv, hsvP]
  · rw [toNat_scale16_twice hv255 hs255 hrem255, hs, hv, hrem, hsvQ]
  · rw [toNat_scale16_twice hv255 hs255 (by omega), hsubr, hs, hv, hrem, hsvT]

/-- Settles O49: the reference evaluated at the ten vectors. -/
theorem referenceHsvVectors : Obligations.ReferenceHsvVectors := by
  intro himpl
  rw [Config.hsvPermitted, himpl]
  decide

end

section
/-! PROOF. The frames of the words taken (R85): what each instruction adds to the groups, and that every frame but
the last is whole. -/

namespace Sys2Proof.Machine

variable {is : List Instr} {f g : Frame} {fs : List Frame} {left : Nat}

/-! ### Sizes and groups of any sequence of instructions -/

@[simp] theorem instrFrameSize_encodeMany_zero : instrFrameSize (.encodeMany 0) = none := by
  rw [instrFrameSize, if_pos rfl]

theorem instrFrameSize_encodeMany {n : Count} (hn : n ≠ 0) : instrFrameSize (.encodeMany n) = some n.toNat :=
  if_neg hn

/-- The sizes of the frames are the counts above 0 (R85, log 19). -/
theorem sizes_manyFrames (is : List Instr) :
    (manyFrames is).map Frame.size = is.filterMap instrFrameSize := by
  induction is with
  | nil => rfl
  | cons i is ih =>
    cases i with
    | hsv2rgb h s v => exact ih
    | encode x => rw [manyFrames_encode]; exact ih
    | encodeMany n =>
      by_cases hn : n = 0
      · subst hn
        rw [manyFrames_encodeMany_zero, List.filterMap_cons_none instrFrameSize_encodeMany_zero, ih]
      · rw [manyFrames_encodeMany is hn, List.filterMap_cons_some (instrFrameSize_encodeMany hn), List.map_cons, ih]
    | data x => exact ih
    | reserved w => exact ih

/-- A run of ENCODEs adds no ENCODE_MANY group. -/
theorem many_mem_consEach {x : Color} {gs : List FrameGroup} (h : .many f ∈ consEach x gs) : .many f ∈ gs := by
  cases gs with
  | nil => simp [consEach] at h
  | cons g gs => cases g <;> simpa [consEach] using h

/-- An ENCODE_MANY group has at least one colour to come (log 19). -/
theorem size_ne_zero_of_many (h : .many f ∈ frameGroups is) : f.size ≠ 0 := by
  induction is with
  | nil => cases h
  | cons i is ih =>
    cases i with
    | hsv2rgb h s v => exact ih h
    | encode x => exact ih (many_mem_consEach h)
    | encodeMany n =>
      rw [frameGroups] at h
      split at h
      case isTrue => exact ih h
      case isFalse hn =>
        obtain heq | hrest := List.mem_cons.mp h
        · cases heq
          exact fun h0 => hn (BitVec.eq_of_toNat_eq h0)
        · exact ih hrest
    | data x => exact ih h
    | reserved w => exact ih h

/-! ### Colours of a sequence of words -/

variable (ws : List Word) (collect : Count)

/-- The colours of an open count come first, then those of the groups; together they are all the colours. -/
theorem colors_frameGroups :
    leadingData (decodeStream collect ws) ++ (frameGroups (decodeStream collect ws)).flatMap FrameGroup.colors =
      (decodeStream collect ws).flatMap instrColors := by
  induction ws generalizing collect with
  | nil => rfl
  | cons w ws ih =>
    by_cases hopen : collect = 0
    case neg =>
      rw [decodeStream, decode_of_open hopen]
      exact congrArg (colorOf w :: ·) (ih _)
    subst hopen
    have hclosed := ih 0
    rw [leadingData_of_closed, List.nil_append] at hclosed
    rw [leadingData_of_closed, List.nil_append, decodeStream, nextCollect, decode_zero]
    obtain ⟨-, hd⟩ | ⟨-, hd⟩ | ⟨-, hd⟩ | ⟨-, hd⟩ := decodeOp_cases w <;> rw [hd]
    · exact hclosed
    · rw [frameGroups, collectOf_encode, colors_consEach, hclosed]
      rfl
    · rw [collectOf_encodeMany, frameGroups]
      split
      case isTrue hn =>
        rw [hn]
        exact hclosed
      case isFalse => exact ih _
    · exact hclosed

/-- The frames of the ENCODE_MANYs hold the colours of the data words. -/
theorem colors_manyFrames :
    leadingData (decodeStream collect ws) ++ (manyFrames (decodeStream collect ws)).flatMap Frame.colors =
      (decodeStream collect ws).flatMap dataColors := by
  induction ws generalizing collect with
  | nil => rfl
  | cons w ws ih =>
    by_cases hopen : collect = 0
    case neg =>
      rw [decodeStream, decode_of_open hopen]
      exact congrArg (colorOf w :: ·) (ih _)
    subst hopen
    have hclosed := ih 0
    rw [leadingData_of_closed, List.nil_append] at hclosed
    rw [leadingData_of_closed, List.nil_append, decodeStream, nextCollect, decode_zero]
    obtain ⟨-, hd⟩ | ⟨-, hd⟩ | ⟨-, hd⟩ | ⟨-, hd⟩ := decodeOp_cases w <;> rw [hd]
    · exact hclosed
    · rw [manyFrames_encode]
      exact hclosed
    · rw [collectOf_encodeMany]
      by_cases hn : fieldN w = 0
      · rw [hn, manyFrames_encodeMany_zero]
        exact hclosed
      · rw [manyFrames_encodeMany _ hn]
        exact ih _
    · exact hclosed

/-! ### Whole frames -/

/-- Every frame but the last is whole, and the last lacks `left` colours. -/
structure FramesFill (fs : List Frame) (left : Nat) : Prop where
  whole : ∀ f ∈ fs.dropLast, f.whole = true
  last : ∀ f, fs.getLast? = some f → f.colors.length + left = f.size

theorem FramesFill.single (hf : f.colors.length + left = f.size) : FramesFill [f] left where
  whole := fun _ h => by cases h
  last := fun _ h => by cases h; exact hf

/-- A frame before others is whole; the others fill as they do alone. -/
theorem framesFill_cons_cons :
    FramesFill (f :: g :: fs) left ↔ f.whole = true ∧ FramesFill (g :: fs) left := by
  constructor
  · intro ⟨hwhole, hlast⟩
    rw [List.dropLast_cons_cons, List.forall_mem_cons] at hwhole
    exact ⟨hwhole.1, hwhole.2, fun e he => hlast e (by rw [List.getLast?_cons_cons]; exact he)⟩
  · intro ⟨hf, hwhole, hlast⟩
    refine ⟨?_, fun e he => hlast e (by rwa [List.getLast?_cons_cons] at he)⟩
    rw [List.dropLast_cons_cons, List.forall_mem_cons]
    exact ⟨hf, hwhole⟩

theorem FramesFill.tail (h : FramesFill (f :: fs) left) : FramesFill fs left := by
  cases fs with
  | nil => exact ⟨fun _ hf => absurd hf List.not_mem_nil, fun _ hf => absurd hf nofun⟩
  | cons g fs => exact (framesFill_cons_cons.mp h).2

/-- One colour more in a first frame that is one larger. -/
theorem FramesFill.head_succ {n : Nat} {x : Color} {cs : List Color} (h : FramesFill (⟨n, cs⟩ :: fs) left) :
    FramesFill (⟨n + 1, x :: cs⟩ :: fs) left := by
  cases fs with
  | nil =>
    have hlast : cs.length + left = n := h.last _ rfl
    refine .single ?_
    change cs.length + 1 + left = n + 1
    omega
  | cons g fs =>
    obtain ⟨hwhole, hrest⟩ := framesFill_cons_cons.mp h
    rw [Frame.whole, decide_eq_true_iff] at hwhole
    refine framesFill_cons_cons.mpr ⟨?_, hrest⟩
    rw [Frame.whole, decide_eq_true_iff, List.length_cons, hwhole]

/-- The colours of an open count are a frame of that size before the frames of the words: all of them are whole but
the last, which lacks what COLLECT still expects. -/
theorem framesFill_manyFrames :
    FramesFill (⟨collect.toNat, leadingData (decodeStream collect ws)⟩ :: manyFrames (decodeStream collect ws))
      (collectAfter collect ws).toNat := by
  induction ws generalizing collect with
  | nil => exact .single (Nat.zero_add _)
  | cons w ws ih =>
    by_cases hopen : collect = 0
    case neg =>
      have hrest := (ih (collect - 1)).head_succ (x := colorOf w)
      rw [toNat_count_pred hopen] at hrest
      rw [decodeStream, collectAfter, nextCollect_of_open hopen, decode_of_open hopen]
      exact hrest
    subst hopen
    have hclosed := ih 0
    rw [leadingData_of_closed] at hclosed
    rw [leadingData_of_closed, decodeStream, collectAfter, nextCollect, decode_zero]
    obtain ⟨-, hd⟩ | ⟨-, hd⟩ | ⟨-, hd⟩ | ⟨-, hd⟩ := decodeOp_cases w <;> rw [hd]
    · exact hclosed
    · rw [manyFrames_encode]
      exact hclosed
    · rw [collectOf_encodeMany]
      by_cases hn : fieldN w = 0
      · rw [hn, manyFrames_encodeMany_zero]
        exact hclosed
      · rw [manyFrames_encodeMany _ hn]
        exact framesFill_cons_cons.mpr ⟨rfl, ih _⟩
    · exact hclosed

end Sys2Proof.Machine

open Sys2Proof Sys2Proof.Machine

/-- Settles O47: with COLLECT = 0 no colour comes before the first frame. -/
theorem framesPartitionTheColors : Obligations.FramesPartitionTheColors := by
  intro ws is
  obtain ⟨hwhole, hlast⟩ := (framesFill_manyFrames ws 0).tail
  have hdata := colors_manyFrames ws 0
  have hall := colors_frameGroups ws 0
  rw [leadingData_of_closed, List.nil_append] at hdata hall
  exact ⟨sizes_manyFrames is, hwhole, hlast, hdata, hall⟩

end

section
/-! PROOF. What a consumer that meets its duties has transmitted (R47, R85, R120). -/

namespace Sys2Proof.Machine

variable {c : Config} {is : List Instr} {gs : List FrameGroup} {fs : List Frame}

/-- Whole frames that the groups allow have a colour each, and together hold the colours of the groups. -/
theorem framesAllowed_colors (hpos : ∀ f, .many f ∈ gs → f.size ≠ 0) (hwhole : ∀ f ∈ fs, f.whole = true)
    (hallowed : framesAllowed gs fs = true) :
    (∀ f ∈ fs, f.colors ≠ []) ∧ fs.flatMap Frame.colors = gs.flatMap FrameGroup.colors := by
  induction fs generalizing gs with
  | nil =>
    rw [framesAllowed, decide_eq_true_iff] at hallowed
    rw [hallowed]
    exact ⟨fun _ hf => absurd hf List.not_mem_nil, rfl⟩
  | cons g fs ih =>
    obtain ⟨hg, hfs⟩ := List.forall_mem_cons.mp hwhole
    cases gs with
    | nil => cases hallowed
    | cons grp gs =>
      have hrest : ∀ f, .many f ∈ gs → f.size ≠ 0 := fun f hf => hpos f (List.mem_cons_of_mem _ hf)
      cases grp with
      | many f =>
        rw [framesAllowed, Bool.and_eq_true, decide_eq_true_iff] at hallowed
        obtain ⟨rfl, hallowed⟩ := hallowed
        obtain ⟨hne, hcolors⟩ := ih hrest hfs hallowed
        rw [Frame.whole, decide_eq_true_iff] at hg
        have hf : f.colors ≠ [] := by
          intro h
          rw [h] at hg
          exact hpos f List.mem_cons_self hg.symm
        exact ⟨List.forall_mem_cons.mpr ⟨hf, hne⟩, congrArg (f.colors ++ ·) hcolors⟩
      | each cs =>
        rw [framesAllowed, Bool.and_eq_true, Bool.and_eq_true, decide_eq_true_iff, List.isPrefixOf_iff_prefix]
          at hallowed
        obtain ⟨⟨hgne, hprefix⟩, hallowed⟩ := hallowed
        obtain ⟨later, rfl⟩ := hprefix
        rw [List.drop_left] at hallowed
        split at hallowed
        case isTrue hlater =>
          rw [Bool.and_eq_true] at hallowed
          obtain ⟨hne, hcolors⟩ := ih hrest hfs hallowed.2
          rw [hlater, List.append_nil]
          exact ⟨List.forall_mem_cons.mpr ⟨hgne, hne⟩, congrArg (g.colors ++ ·) hcolors⟩
        case isFalse =>
          rw [Bool.and_eq_true] at hallowed
          have hpos' : ∀ f, .many f ∈ FrameGroup.each later :: gs → f.size ≠ 0 := fun f hf =>
            hrest f ((List.mem_cons.mp hf).resolve_left nofun)
          obtain ⟨hne, hcolors⟩ := ih hpos' hfs hallowed.2
          refine ⟨List.forall_mem_cons.mpr ⟨hgne, hne⟩, ?_⟩
          rw [List.flatMap_cons, hcolors, List.flatMap_cons, List.flatMap_cons, ← List.append_assoc]
          rfl

theorem Frame.pulses_ne_nil {f : Frame} (hf : f.colors ≠ []) : f.pulses c ≠ [] := by
  obtain ⟨x, xs, hx⟩ := List.exists_cons_of_ne_nil hf
  apply List.ne_nil_of_length_pos
  rw [Frame.pulses, length_encodeManyPulses, hx, List.length_cons]
  omega

theorem flatMap_pulses (fs : List Frame) :
    fs.flatMap (Frame.pulses c) = encodeManyPulses c (fs.flatMap Frame.colors) := by
  induction fs with
  | nil => rfl
  | cons f fs ih => rw [List.flatMap_cons, List.flatMap_cons, encodeManyPulses_append, ih, Frame.pulses]

/-- A transmission cut at the frames, whose pulses are all of theirs, has exactly the frames' pulses. -/
theorem framesCut_eq {ts : List (List SentPulse)} (hcut : framesCut c ts fs = true)
    (hne : ∀ f ∈ fs, f.pulses c ≠ []) (hall : ts.flatMap sentPulses = fs.flatMap (Frame.pulses c)) :
    ts.map sentPulses = fs.map (Frame.pulses c) := by
  induction ts generalizing fs with
  | nil =>
    cases fs with
    | nil => rfl
    | cons f fs =>
      have hnil : f.pulses c = [] := (List.append_eq_nil_iff.mp hall.symm).1
      exact absurd hnil (hne f List.mem_cons_self)
  | cons t ts ih =>
    cases fs with
    | nil => cases ts <;> cases hcut
    | cons f fs =>
      rw [List.forall_mem_cons] at hne
      have hfirst : sentPulses t = f.pulses c ∧ framesCut c ts fs = true := by
        cases ts with
        | nil =>
          rw [framesCut, Bool.and_eq_true, List.isPrefixOf_iff_prefix] at hcut
          obtain ⟨-, missing, hmissing⟩ := hcut
          have hnil : missing = [] := by
            rw [List.flatMap_cons, List.flatMap_nil, List.append_nil, List.flatMap_cons, ← hmissing,
              List.append_assoc, List.self_eq_append_right] at hall
            exact (List.append_eq_nil_iff.mp hall).1
          rw [hnil, List.append_nil] at hmissing
          exact ⟨hmissing, rfl⟩
        | cons u us =>
          rw [framesCut, Bool.and_eq_true, Bool.and_eq_true, decide_eq_true_iff] at hcut
          exact ⟨hcut.1.1, hcut.2⟩
      rw [List.flatMap_cons, List.flatMap_cons, hfirst.1, List.append_cancel_left_eq] at hall
      rw [List.map_cons, List.map_cons, hfirst.1, ih hfirst.2 hne.2 hall]

/-- After each frame of which all pulses have been sent the line is low for `T_RESET_MIN` (R120). -/
theorem gapsKept_of_sent {ts : List (List SentPulse)} {lead : Nat}
    (hgaps : Transmission.gapsKept c fs ⟨lead, ts⟩ = true) (hwhole : ∀ f ∈ fs, f.whole = true)
    (hne : ∀ f ∈ fs, f.pulses c ≠ []) (hsent : ts.map sentPulses = fs.map (Frame.pulses c)) :
    ∀ x ∈ ts, ∃ z, x.getLast? = some z ∧ c.tResetMin ≤ z.idle := by
  intro x hx
  obtain ⟨i, hi, rfl⟩ := List.getElem_of_mem hx
  have hi' : i < fs.length := by
    have hlen := congrArg List.length hsent
    rw [List.length_map, List.length_map] at hlen
    rwa [← hlen]
  have hmem : fs[i] ∈ fs := List.getElem_mem hi'
  have hpulses : sentPulses ts[i] = fs[i].pulses c := by
    have := congrArg (·[i]?) hsent
    simpa [hi, hi'] using this
  have hpair : (ts[i], fs[i]) ∈ ts.zip fs := by
    rw [← List.getElem_zip (h := by rw [List.length_zip]; exact Nat.lt_min.mpr ⟨hi, hi'⟩)]
    exact List.getElem_mem _
  have hgap : gapKept c ts[i] fs[i] = true := List.all_eq_true.mp hgaps _ hpair
  have hx0 : ts[i] ≠ [] := by
    intro h
    rw [h] at hpulses
    exact hne _ hmem hpulses.symm
  refine ⟨_, List.getLast?_eq_some_getLast hx0, ?_⟩
  rw [gapKept, hwhole _ hmem, decide_eq_true hpulses, Bool.and_self, if_pos rfl,
    List.getLast?_eq_some_getLast hx0] at hgap
  exact of_decide_eq_true hgap

theorem sentPulses_flatten (ts : List (List SentPulse)) : sentPulses ts.flatten = ts.flatMap sentPulses := by
  rw [sentPulses, List.map_flatten, List.flatMap_def]
  rfl

end Sys2Proof.Machine

open Sys2Proof Sys2Proof.Machine

/-- Settles O59: at a final state all pulses have been popped and no count is open, so the frames hold all the
colours and their pulses are those sent. -/
theorem dutiesTransmitTheFrames : Obligations.DutiesTransmitTheFrames := by
  intro p y threshold frames t hreach hfinal hwhole hduties
  obtain ⟨-, -, -, h0, hpulse⟩ := hfinal
  rw [Sys.dutiesMet, Bool.and_eq_true, Transmission.dutiesMet] at hduties
  simp only [Bool.and_eq_true] at hduties
  obtain ⟨hframes, ⟨⟨⟨horder, hcut⟩, hgaps⟩, hinside⟩, hlead⟩ := hduties
  obtain ⟨hcolored, hcolors⟩ := framesAllowed_colors (fun _ => size_ne_zero_of_many) hwhole hframes
  have hacc : frames.flatMap Frame.colors = y.acc := by
    have hgroups := colors_frameGroups y.taken 0
    rw [leadingData_of_closed, List.nil_append] at hgroups
    rw [hcolors, hgroups, hreach.inv.words.colors]
  have hne : ∀ f ∈ frames, f.pulses hw ≠ [] := fun f hf => Frame.pulses_ne_nil (hcolored f hf)
  have hsent : y.sent = encodeManyPulses hw y.acc := hreach.inv.sent_of_drained h0 hpulse
  have hall : t.frames.flatMap sentPulses = frames.flatMap (Frame.pulses hw) := by
    rw [← sentPulses_flatten, of_decide_eq_true horder, hsent, flatMap_pulses, hacc]
  have hsame := framesCut_eq hcut hne hall
  refine ⟨hsame, hacc, of_decide_eq_true hlead, fun x hx => ⟨?_, fun z hz => ?_⟩⟩
  · exact gapsKept_of_sent hgaps hwhole hne hsame x hx
  · exact of_decide_eq_true (List.all_eq_true.mp (List.all_eq_true.mp hinside x hx) z hz)

end

section
/-! PROOF. The assembler (R61, R62): the words of a FRAME, the lines it refuses, and that what it accepts never raises
IllegalOp. -/

namespace Sys2Proof.Machine

variable {l : AsmLine} {ls : List AsmLine} {collect : Count} {w : Word} {ws : List Word} {x : Color}

theorem assembleFrom_cons (h : l.toWord collect = some w) :
    assembleFrom collect (l :: ls) = (assembleFrom (nextCollect collect w) ls).map (w :: ·) := by
  rw [assembleFrom, h]

theorem assembleFrom_cons_none (h : l.toWord collect = none) : assembleFrom collect (l :: ls) = none := by
  rw [assembleFrom, h]

/-! ### A FRAME's words -/

theorem fitColor_toNat (x : Color) : fitColor x.r.toNat x.g.toNat x.b.toNat = some x := by
  rw [fitColor, fitsIn_of_lt x.r.isLt, fitsIn_of_lt x.g.isLt, fitsIn_of_lt x.b.isLt]
  simp only [BitVec.ofNat_toNat, BitVec.setWidth_eq]

/-- A colour's line, as a FRAME expands to it. -/
def colorLine (x : Color) : AsmLine := .color x.r.toNat x.g.toNat x.b.toNat

theorem toWord_colorLine (h : collect ≠ 0) : (colorLine x).toWord collect = some (Sys2Proof.encode (.data x)) := by
  rw [colorLine, AsmLine.toWord, if_neg h, fitColor_toNat, Option.map_some]

/-- In a count of just so many, colours assemble to their data words. -/
theorem assembleFrom_colorLines {xs : List Color} (hlen : xs.length < 2 ^ 24) :
    assembleFrom (openCount xs) (xs.map colorLine) = some (xs.map fun x => Sys2Proof.encode (.data x)) := by
  induction xs with
  | nil => rfl
  | cons x xs ih =>
    rw [List.map_cons, assembleFrom_cons (toWord_colorLine (openCount_cons_ne_zero hlen)), (data_word_delivers hlen).2,
      ih (Nat.lt_of_succ_lt hlen), Option.map_some, List.map_cons]

theorem assembleFrom_frame {xs : List Color} (hlen : xs.length < 2 ^ 24) :
    assembleFrom 0 (.encodeMany xs.length :: xs.map colorLine) =
      some (Sys2Proof.encode (.encodeMany (openCount xs)) :: xs.map fun x => Sys2Proof.encode (.data x)) := by
  have hheader : (AsmLine.encodeMany xs.length).toWord 0 =
      some (Sys2Proof.encode (.encodeMany (openCount xs))) := by
    rw [AsmLine.toWord, fitsIn_of_lt hlen, Option.map_some]
    rfl
  rw [assembleFrom_cons hheader, nextCollect_header, assembleFrom_colorLines hlen, Option.map_some]

/-! ### Refusals -/

/-- Lines of which one does not fit are refused, whatever the open count. -/
theorem assembleFrom_of_misfit (hl : l ∈ ls) (h : l.misfits = true) (collect : Count) :
    assembleFrom collect ls = none := by
  induction ls generalizing collect with
  | nil => cases hl
  | cons k ls ih =>
    obtain rfl | hrest := List.mem_cons.mp hl
    · exact assembleFrom_cons_none (toWord_of_misfits h collect)
    · cases hk : k.toWord collect with
      | none => exact assembleFrom_cons_none hk
      | some w => rw [assembleFrom_cons hk, ih hrest, Option.map_none]

/-- A line that does not fit still does not once expanded: a FRAME's count or one of its colours is then too large. -/
theorem misfits_expand (h : l.misfits = true) : ∃ k ∈ l.expand, k.misfits = true := by
  cases l with
  | hsv2rgb a b d => exact ⟨_, List.mem_singleton_self _, h⟩
  | encode a b d => exact ⟨_, List.mem_singleton_self _, h⟩
  | encodeMany n => exact ⟨_, List.mem_singleton_self _, h⟩
  | color a b d => exact ⟨_, List.mem_singleton_self _, h⟩
  | word v => exact ⟨_, List.mem_singleton_self _, h⟩
  | nop => cases h
  | frame cs =>
    rw [AsmLine.misfits, Bool.or_eq_true, List.any_eq_true] at h
    obtain hcount | ⟨d, hd, hover⟩ := h
    · exact ⟨_, List.mem_cons_self, hcount⟩
    · exact ⟨_, List.mem_cons_of_mem _ (List.mem_map_of_mem hd), hover⟩

theorem assembleFrom_expand_of_misfits (h : l.misfits = true) (hl : ∀ k ∈ l.expand, k ∈ ls) (collect : Count) :
    assembleFrom collect ls = none := by
  obtain ⟨k, hk, hmis⟩ := misfits_expand h
  exact assembleFrom_of_misfit (hl k hk) hmis collect

theorem assembleFrom_uncovered_color (r g b : Nat) (ls : List AsmLine) :
    assembleFrom 0 (.color r g b :: ls) = none :=
  assembleFrom_cons_none (by rw [AsmLine.toWord, if_pos rfl])

/-! ### No reserved word -/

/-- The word of a line other than `.word` is the encoding of an operation, or of a colour an open count covers. -/
theorem toWord_eq_some (hword : ∀ v, l ≠ .word v) (h : l.toWord collect = some w) :
    ∃ i : Instr, w = Sys2Proof.encode i ∧ i.wf = true ∧ instrIsReserved i = false ∧
      (i.isData = true → collect ≠ 0) := by
  cases l with
  | hsv2rgb a b d =>
    rw [AsmLine.toWord] at h
    split at h
    case h_1 y _ => cases h; exact ⟨.hsv2rgb y.r y.g y.b, rfl, rfl, rfl, nofun⟩
    case h_2 => cases h
  | encode a b d =>
    obtain ⟨y, -, rfl⟩ := Option.map_eq_some_iff.mp h
    exact ⟨.encode y, rfl, rfl, rfl, nofun⟩
  | encodeMany n =>
    obtain ⟨m, -, rfl⟩ := Option.map_eq_some_iff.mp h
    exact ⟨.encodeMany m, rfl, rfl, rfl, nofun⟩
  | color a b d =>
    rw [AsmLine.toWord] at h
    split at h
    case isTrue => cases h
    case isFalse hopen =>
      obtain ⟨y, -, rfl⟩ := Option.map_eq_some_iff.mp h
      exact ⟨.data y, rfl, rfl, rfl, fun _ => hopen⟩
  | word v => exact absurd rfl (hword v)
  | nop => cases h
  | frame cs => cases h

theorem toWord_not_reserved (hword : ∀ v, l ≠ .word v) (h : l.toWord collect = some w) :
    instrIsReserved (decode collect w) = false := by
  by_cases hc : collect = 0
  · subst hc
    obtain ⟨i, rfl, hwf, hres, hdata⟩ := toWord_eq_some hword h
    have hop : i.isData = false := Bool.eq_false_iff.mpr fun hd => hdata hd rfl
    rw [decode_zero, decodeOp_encode_of_wf hop hwf, hres]
  · rw [decode_of_open hc]
    rfl

theorem assembleFrom_not_reserved (hword : ∀ l ∈ ls, ∀ v, l ≠ .word v) (h : assembleFrom collect ls = some ws) :
    (decodeStream collect ws).any instrIsReserved = false := by
  induction ls generalizing collect ws with
  | nil => cases h; rfl
  | cons l ls ih =>
    obtain ⟨hl, hls⟩ := List.forall_mem_cons.mp hword
    cases hlw : l.toWord collect with
    | none =>
      rw [assembleFrom_cons_none hlw] at h
      cases h
    | some w =>
      rw [assembleFrom_cons hlw] at h
      obtain ⟨vs, hvs, rfl⟩ := Option.map_eq_some_iff.mp h
      rw [decodeStream, List.any_cons, toWord_not_reserved hl hlw, ih hls hvs, Bool.or_false]

/-- The pseudo-instructions expand to no `.word`. -/
theorem expand_ne_word (hword : ∀ v, l ≠ .word v) {k : AsmLine} (hk : k ∈ l.expand) (v : Nat) :
    k ≠ .word v := by
  cases l with
  | hsv2rgb a b d => rw [List.mem_singleton.mp hk]; nofun
  | encode a b d => rw [List.mem_singleton.mp hk]; nofun
  | encodeMany n => rw [List.mem_singleton.mp hk]; nofun
  | color a b d => rw [List.mem_singleton.mp hk]; nofun
  | word u => exact absurd rfl (hword u)
  | nop => rw [List.mem_singleton.mp hk]; nofun
  | frame cs =>
    obtain rfl | hcolor := List.mem_cons.mp hk
    · nofun
    · obtain ⟨d, -, rfl⟩ := List.mem_map.mp hcolor
      nofun

end Sys2Proof.Machine

open Sys2Proof Sys2Proof.Machine

/-- Settles O56: the header opens a count of just so many colours; with none it is the NOP. -/
theorem frameAssemblesToCountAndColors : Obligations.FrameAssemblesToCountAndColors := by
  refine ⟨fun xs hlen => ?_, by decide, by decide⟩
  have hexpand : [AsmLine.frame (xs.map fun x => (x.r.toNat, x.g.toNat, x.b.toNat))].flatMap AsmLine.expand =
      .encodeMany xs.length :: xs.map colorLine := by
    rw [List.flatMap_singleton, AsmLine.expand, List.length_map, List.map_map]
    rfl
  rw [assemble, hexpand, assembleFrom_frame hlen]
  rfl

/-- Settles O57: an operand that does not fit is refused under any count, a `.color` where none is open. -/
theorem assemblerRefusesMisfits : Obligations.AssemblerRefusesMisfits := by
  refine ⟨fun pre l ls h => ?_, fun pre ws r g b ls hpre hclosed => ?_, fun collect l ls h => ⟨?_, ?_⟩,
    assembleFrom_uncovered_color⟩
  · refine assembleFrom_expand_of_misfits h (fun k hk => ?_) 0
    exact List.mem_flatMap.mpr ⟨l, List.mem_append_right pre List.mem_cons_self, hk⟩
  · have huncovered : assembleFrom 0 ((AsmLine.color r g b :: ls).flatMap AsmLine.expand) = none :=
      assembleFrom_uncovered_color r g b _
    rw [assemble] at hpre
    rw [assemble, List.flatMap_append, assembleFrom_append, hpre, Option.bind_some, hclosed, huncovered,
      Option.map_none]
  · exact assembleFrom_of_misfit List.mem_cons_self h collect
  · exact assembleFrom_expand_of_misfits h (fun k hk => List.mem_append_left ls hk) collect

/-- Settles O58: no line but `.word` gives a word that decodes as reserved under the count it stands in. -/
theorem assembledOperationsAreNeverIllegal : Obligations.AssembledOperationsAreNeverIllegal := by
  intro ls ws hword h
  refine assembleFrom_not_reserved (fun k hk v => ?_) h
  obtain ⟨l, hl, hkl⟩ := List.mem_flatMap.mp hk
  exact expand_ne_word (hword l hl) hkl v

end

section
/-! PROOF. The end of a fair run (R124, R125): every move but a STATUS read uses up work, a task that stays ready is
taken, and a system in which no task is ready is final where the partners go on and no count is left open. -/

namespace Sys2Proof.Machine

variable {p : Partners} {y : Nat → Sys} {m : Nat → Option Move} {u v : Sys} {k : Task}

/-! ### Readiness -/

/-- Whether a move is enabled depends on the block alone. -/
theorem move_isSome_congr (hb : u.block = v.block) (mv : Move) : (u.move mv).isSome = (v.move mv).isSome := by
  cases mv with
  | push w =>
    rw [Sys.move, Sys.move, hb]
    cases chanPush hw.cmdDepth v.block.cmd w <;> rfl
  | popRes =>
    rw [Sys.move, Sys.move, hb]
    cases chanPop v.block.res <;> rfl
  | readStatus => rfl
  | reset sh => rfl
  | block =>
    rw [Sys.move, Sys.move, hb]
    cases blockEnabled v.block
    · rfl
    · cases step v.block <;> rfl
  | popPulse =>
    rw [Sys.move, Sys.move, hb]
    cases chanPop v.block.pulse <;> rfl

/-- Whether a task is ready depends on the block and on how much the host has written. -/
theorem ready_congr (hb : u.block = v.block) (hp : u.pushed = v.pushed) : u.Ready p k ↔ v.Ready p k := by
  have hnext : p.next u k = p.next v k := by cases k <;> simp only [Partners.next, hp]
  simp only [Sys.Ready, hnext, move_isSome_congr hb]

/-- No task is to read STATUS. -/
theorem next_ne_readStatus : p.next u k ≠ some .readStatus := by
  cases k with
  | block => nofun
  | write =>
    intro h
    obtain ⟨w, -, hpush⟩ := Option.map_eq_some_iff.mp h
    cases hpush
  | read =>
    rw [Partners.next]
    split <;> nofun
  | pop =>
    rw [Partners.next]
    split <;> nofun

/-! ### Along a run -/

/-- An endless run of partners who keep to their program, from a system with the invariants. -/
structure ProgramRun (p : Partners) (y : Nat → Sys) (m : Nat → Option Move) : Prop where
  trace : IsTrace y m
  follows : Follows p y m
  inv : ∀ n, (y n).Inv
  pushed : ∀ n, (y n).pushed <+: p.program

theorem trace_step (h : IsTrace y m) (n : Nat) :
    (m n = none ∧ y (n + 1) = y n) ∨ ∃ mv, m n = some mv ∧ (y n).move mv = some (y (n + 1)) := by
  have hn := h n
  cases hm : m n with
  | none => rw [hm] at hn; exact .inl ⟨rfl, hn⟩
  | some mv => rw [hm] at hn; exact .inr ⟨mv, rfl, hn⟩

theorem programRun_of_start (ht : IsTrace y m) (hf : Follows p y m) (hinv : (y 0).Inv)
    (hp : (y 0).pushed <+: p.program) : ProgramRun p y m := by
  have hboth : ∀ n, (y n).Inv ∧ (y n).pushed <+: p.program := by
    intro n
    induction n with
    | zero => exact ⟨hinv, hp⟩
    | succ n ih =>
      obtain ⟨hi, hpre⟩ := ih
      obtain ⟨-, hsame⟩ | ⟨mv, hmv, hmove⟩ := trace_step ht n
      · rw [hsame]
        exact ⟨hi, hpre⟩
      · exact ⟨move_keeps_inv mv _ _ hi hmove, (work_lt hi.block.emit_le (hf n mv hmv) hpre hmove).1⟩
  exact ⟨ht, hf, fun n => (hboth n).1, fun n => (hboth n).2⟩

/-- One moment of a run uses up work, or changes nothing that a task depends on and makes no task's move. -/
theorem ProgramRun.step (h : ProgramRun p y m) (n : Nat) :
    (y (n + 1)).work p < (y n).work p ∨
      ((y (n + 1)).block = (y n).block ∧ (y (n + 1)).pushed = (y n).pushed ∧
        ∀ k mv, p.next (y n) k = some mv → m n ≠ some mv) := by
  obtain ⟨hm, hsame⟩ | ⟨mv, hmv, hmove⟩ := trace_step h.trace n
  · rw [hsame, hm]
    exact .inr ⟨rfl, rfl, nofun⟩
  · obtain ⟨-, hless | ⟨rfl, hblock, hpushed⟩⟩ :=
      work_lt (h.inv n).block.emit_le (h.follows n mv hmv) (h.pushed n) hmove
    · exact .inl hless
    · refine .inr ⟨hblock, hpushed, fun k mv hnext hmv' => ?_⟩
      rw [hmv] at hmv'
      rw [← hmv'] at hnext
      exact next_ne_readStatus hnext

/-- Up to any later moment, work has been used up or nothing that a task depends on has changed. -/
theorem ProgramRun.work_lt_or_same (h : ProgramRun p y m) {n i : Nat} (hni : n ≤ i) :
    (∃ j, (y j).work p < (y n).work p) ∨ ((y i).block = (y n).block ∧ (y i).pushed = (y n).pushed) := by
  induction i, hni using Nat.le_induction with
  | base => exact .inr ⟨rfl, rfl⟩
  | succ i hni ih =>
    obtain hless | ⟨hblock, hpushed⟩ := ih
    · exact .inl hless
    obtain hless | ⟨hblock', hpushed', -⟩ := h.step i
    · refine .inl ⟨i + 1, ?_⟩
      simpa only [Sys.work, hblock, hpushed] using hless
    · exact .inr ⟨hblock'.trans hblock, hpushed'.trans hpushed⟩

/-- A ready task is taken, or a move has made it unready: either way some work is used up. -/
theorem ProgramRun.work_lt_of_ready (h : ProgramRun p y m) (hfair : Fair p y m) {n : Nat}
    (hready : (y n).Ready p k) : ∃ j, (y j).work p < (y n).work p := by
  obtain ⟨i, hni, hi⟩ := hfair k n
  obtain hless | ⟨hblock, hpushed⟩ := h.work_lt_or_same hni
  · exact hless
  have hready' : (y i).Ready p k := (ready_congr hblock hpushed).mpr hready
  have hmove : m i = p.next (y i) k := hi.resolve_left (not_not_intro hready')
  obtain ⟨mv, hnext, -⟩ := hready'
  obtain hless | ⟨-, -, hnone⟩ := h.step i
  · refine ⟨i + 1, ?_⟩
    simpa only [Sys.work, hblock, hpushed] using hless
  · exact absurd (hmove.trans hnext) (hnone k mv hnext)

/-- A fair run halts: work is a natural number, and a system with a ready task loses some. -/
theorem ProgramRun.halts (h : ProgramRun p y m) (hfair : Fair p y m) : ∃ i, (y i).Halted p := by
  have hfrom : ∀ w n, (y n).work p = w → ∃ i, (y i).Halted p := by
    intro w
    induction w using Nat.strong_induction_on with
    | _ w ih =>
      intro n hn
      by_cases hhalt : (y n).Halted p
      · exact ⟨n, hhalt⟩
      rw [Sys.Halted, not_forall] at hhalt
      obtain ⟨k, hk⟩ := hhalt
      obtain ⟨j, hj⟩ := h.work_lt_of_ready hfair (not_not.mp hk)
      exact ih _ (hn ▸ hj) j rfl
  exact hfrom _ 0 rfl

/-! ### The halted system -/

/-- Partners who go on, with a program that leaves no count open, halt only in a final system. -/
theorem Sys.Halted.final (h : u.Halted p) (hinv : u.Inv) (hp : u.pushed <+: p.program) (hreads : p.hostReads = true)
    (hpops : p.consumerPops = true) (hclosed : collectAfter 0 p.program = 0) : u.Final p := by
  have hreads' : p.hostReads ≠ false := by rw [hreads]; decide
  have hpops' : p.consumerPops ≠ false := by rw [hpops]; decide
  obtain hf | hs | hu | hu := h.cases hinv.block.emit_le hp
  · exact hf
  · obtain ⟨hall, -, hopen, hcmd⟩ | ⟨-, -, hno⟩ | ⟨-, -, hno⟩ := hs
    · have htaken : u.taken = p.program := (hinv.taken_of_cmd_nil hcmd).trans hall
      rw [hinv.words.collect, htaken] at hopen
      exact absurd hclosed hopen
    · exact absurd hno hreads'
    · exact absurd hno hpops'
  · obtain ⟨-, -, -, hno⟩ := hu
    exact absurd hno hpops'
  · obtain ⟨-, -, ⟨-, hno⟩ | ⟨-, hno⟩⟩ := hu
    · exact absurd hno hreads'
    · exact absurd hno hpops'

end Sys2Proof.Machine

open Sys2Proof Sys2Proof.Machine

/-- Settles O60: work runs out, and the halted system is final with the observation of its program. -/
theorem fairRunsEnd : Obligations.FairRunsEnd := by
  intro p y m htrace hfollows hfair hinv hpushed
  have hrun : ProgramRun p y m := programRun_of_start htrace hfollows hinv hpushed
  obtain ⟨i, hhalt⟩ := hrun.halts hfair
  refine ⟨⟨i, hhalt⟩, fun hreads hpops hclosed => ?_⟩
  have hfinal : (y i).Final p := hhalt.final (hrun.inv i) (hrun.pushed i) hreads hpops hclosed
  exact ⟨i, hfinal, (hrun.inv i).observe_of_final hfinal⟩

end
